-- ==== Sys2Proof/Word.lean ====
section
/-! DEFINITION. The 32-bit word (R12) and the bit sequence (R13). -/

namespace Sys2Proof

/-- A word: an unsigned integer of 32 bits, bit 31 the most significant (R12). -/
abbrev Word := BitVec 32

/-- A bit sequence: position 0 is the earliest supplied bit, `true` is 1 (R13). -/
abbrev Bits := List Bool

end Sys2Proof
end

