-- ==== Sys2Proof/Config.lean ====
section
/-! DEFINITION. The parameters of CORE (R9, R10), constants of the hardware and of this spec.
The spec leaves no result of any command open. Its only open values here are two output pins while `rst` is high (U14), which
are free values. The time parameters of R11 are read by no rule and are left out. -/

namespace Sys2Proof.Config

/-- 16 words to a block of 512 bits (R9). -/
abbrev blockWords : Nat := 16

/-- NSCHED: 80 words of message schedule (R9). -/
abbrev schedWords : Nat := 80

/-- LENW: the width of the LEN field of ADD (R10). -/
abbrev lenWidth : Nat := 24

/-- The opcode of INIT, bits 31:24 of its header (R62). -/
abbrev opInit : BitVec 8 := 0x01#8

/-- The opcode of ADD, bits 31:24 of its header (R62). -/
abbrev opAdd : BitVec 8 := 0x02#8

/-- The opcode of FINAL, bits 31:24 of its header (R62). -/
abbrev opFinal : BitVec 8 := 0x03#8

/-- FREE VALUE: what the output `fcode` carries while `rst` is high, at a number of words consumed. The spec leaves it
unspecified (U14 of 93_implementation_defined.md). DESIGN CHOICE, log 9. -/
opaque fcodeInReset : Nat → BitVec 2

/-- FREE VALUE: what the output `cmd_ready` carries while `rst` is high, at a number of words consumed. The spec leaves it
unspecified (U14 of 93_implementation_defined.md). DESIGN CHOICE, log 9. -/
opaque cmdReadyInReset : Nat → Bool

end Sys2Proof.Config
end

