-- ==== Sys2Proof/Machine/BitOrder.lean ====
section
/-! DEFINITION. Bit order and word order (R43 to R46, R66, R67): how bits become words and words become bits. -/

namespace Sys2Proof.Machine

/-- The 32 bits of a word in message order, bit 31 first (R43). -/
def wordBits (w : Word) : Bits :=
  (List.range 32).map fun k => w.getLsbD (31 - k)

/-- A bit sequence read as a number, the earliest bit the most significant. -/
def bitsNat (bs : Bits) : Nat :=
  bs.foldl (fun n b => 2 * n + b.toNat) 0

/-- A sequence of 32 bits as a word, the earliest bit in bit 31 (R43, R44). -/
def wordOfBits (bs : Bits) : Word :=
  BitVec.ofNat 32 (bitsNat bs)

/-- Bits 32j to 32j + 31 of a sequence, as a word (R44). -/
def wordAt (bs : Bits) (j : Nat) : Word :=
  wordOfBits ((bs.drop (32 * j)).take 32)

/-- `words(B)`: the 16 words of a 512-bit block, earlier bits in lower words (R44). -/
def words (block : Bits) : List Word :=
  (List.range Config.blockWords).map (wordAt block)

/-- `be64(T)`: the 64-bit length field, most significant bit first (R45). -/
def be64 (t : BitVec 64) : Bits :=
  (List.range 64).map fun p => t.getLsbD (63 - p)

/-- `ceil(LEN / 32)`: how many payload words carry `len` message bits (R66). -/
def payloadWords (len : Nat) : Nat :=
  (len + 31) / 32

/-- The message bits carried by payload words: bit p is bit 31 - (p mod 32) of word p / 32, and what stands in the last
word after the `len`-th bit is ignored (R67, R68). -/
def messageBits (len : Nat) (payload : List Word) : Bits :=
  (payload.flatMap wordBits).take len

/-- The payload words of a bit sequence, pad bits 0 as a host should send them (R67, R68). -/
def packWords (bits : Bits) : List Word :=
  (List.range (payloadWords bits.length)).map (wordAt (bits ++ List.replicate 31 false))

/-- `BUFREG` holds the sequence `buf` in the packed form of R25: bit p of BUF at BUFREG[511 - p]. Nothing is said of the
bits beyond the sequence, which the spec leaves unspecified and unread. -/
def PackedForm (reg : BitVec 512) (buf : Bits) : Prop :=
  ∀ p : Nat, ∀ b : Bool, buf[p]? = some b → reg.getLsbD (511 - p) = b

end Sys2Proof.Machine
end

