-- ==== Sys2Proof/Syntax.lean ====
section
/-! DEFINITION. The three commands of CORE (R60, R62), one constructor per row of the opcode table. -/

namespace Sys2Proof

/-- A decoded command (R74). The operand of ADD is the sequence of message bits, the pad bits of its last payload word
already gone (R67, R68). -/
inductive Instr where
  /-- INIT: the source's construct (R63, R101). -/
  | init
  /-- ADD: the message bits in order, earliest first (R64 to R68, R105). -/
  | add (bits : Bits)
  /-- FINAL: the source's finalize (R69, R110). -/
  | final
  deriving DecidableEq, Repr

end Sys2Proof
end

