-- ==== Sys2Proof/WellFormed.lean ====
section
/-! DEFINITION. Which commands have an encoding. -/

namespace Sys2Proof

/-- A command is well formed when its fields fit its format: an ADD carries at most 2^24 - 1 message bits, what the LEN
field can say (R10, R64, R65). INIT and FINAL have no operand. -/
def Instr.wf : Instr → Bool
  | .init => true
  | .add bits => decide (bits.length < 2 ^ Config.lenWidth)
  | .final => true

end Sys2Proof
end

