-- ==== Sys2Proof/Decode.lean ====
section
/-! DEFINITION. The command decoder of R74, total on any list of words, and the encoder (R61 to R69). -/

namespace Sys2Proof

/-- What the decoder makes of the stream at a position (R74). -/
inductive Decoded where
  /-- The host has supplied fewer words than the command needs: a hold, not a fault (R135). -/
  | needWord
  /-- The header word matches no encoding (R71). -/
  | illegal (w : Word)
  /-- A whole command, and the position of the word after it. -/
  | command (i : Instr) (next : Nat)
  deriving DecidableEq, Repr

/-- Bits 31:24 of a header word (R61). -/
def opField (w : Word) : BitVec 8 := w.extractLsb' 24 8

/-- Bits 23:0 of a header word: LEN for an ADD (R61, R65). -/
def lenField (w : Word) : BitVec 24 := w.extractLsb' 0 24

/-- The word is an ADD header: every LEN is legal (R64). -/
def isAddHeader (w : Word) : Bool := opField w == Config.opAdd

/-- The ADD branch of R74: the payload follows the header at position `cp`. -/
def decodeAdd (len : Nat) (payload : List Word) (cp : Nat) : Decoded :=
  if payload.length < Machine.payloadWords len then .needWord
  else
    .command (.add (Machine.messageBits len (payload.take (Machine.payloadWords len))))
      (cp + 1 + Machine.payloadWords len)

/-- `decode(CMD, cp)` (R74). It reads only the stream and the position. -/
def decode (cmd : List Word) (cp : Nat) : Decoded :=
  match cmd.drop cp with
  | [] => .needWord
  | w :: rest =>
    if w = 0x01000000#32 then .command .init (cp + 1)
    else if w = 0x03000000#32 then .command .final (cp + 1)
    else if isAddHeader w then decodeAdd (lenField w).toNat rest cp
    else .illegal w

/-- The length of a command in words, a function of its header alone (R73). -/
def headerWords (w : Word) : Nat :=
  if isAddHeader w then 1 + Machine.payloadWords (lenField w).toNat else 1

/-- The words of a command (R61 to R69), the pad bits of an ADD's last payload word 0 (R68). -/
def encode : Instr → List Word
  | .init => [Config.opInit ++ 0#24]
  | .add bits => (Config.opAdd ++ BitVec.ofNat 24 bits.length) :: Machine.packWords bits
  | .final => [Config.opFinal ++ 0#24]

/-- An instruction given as a number of `nbits` bits, laid out as the command stream holds it: the header is the 32 least
significant bits, later words follow, and every bit above `nbits` is 0, up to the length the header asks for. -/
def tableWords (nbits w : Nat) : List Word :=
  let given := (List.range (max 1 ((nbits + 31) / 32))).map fun j =>
    BitVec.ofNat 32 ((w % 2 ^ nbits) >>> (32 * j))
  given ++ List.replicate (headerWords (given.headD 0#32) - given.length) 0#32

/-- The command the decoder reads from those words, `none` where it gives none. -/
def decodeTableWord (nbits w : Nat) : Option Instr :=
  match decode (tableWords nbits w) 0 with
  | .command i _ => some i
  | .needWord => none
  | .illegal _ => none

end Sys2Proof
end

