-- ==== Sys2Proof/Machine/Chain.lean ====
section
/-! DEFINITION. The running state H[0..4] and its initial value (R21, R30). -/

namespace Sys2Proof.Machine

/-- The running state: five 32-bit words, A = H[0] to E = H[4] (R21). -/
structure Chain where
  /-- H[0], the source's A. -/
  h0 : Word
  /-- H[1], the source's B. -/
  h1 : Word
  /-- H[2], the source's C. -/
  h2 : Word
  /-- H[3], the source's D. -/
  h3 : Word
  /-- H[4], the source's E. -/
  h4 : Word
  deriving DecidableEq, Repr

/-- IV, the five initialization constants (R30). -/
def iv : Chain :=
  { h0 := 0x67452301#32, h1 := 0xEFCDAB89#32, h2 := 0x98BADCFE#32, h3 := 0x10325476#32, h4 := 0xC3D2E1F0#32 }

/-- The five words of a running state in the order in which a FINAL emits them, H[0] first (R46, R70). -/
def chainWords (c : Chain) : List Word := [c.h0, c.h1, c.h2, c.h3, c.h4]

/-- The running state as one 160-bit value, H[0] in bits 159:128 and H[4] in bits 31:0 (R46). -/
def chainValue (c : Chain) : BitVec 160 := c.h0 ++ c.h1 ++ c.h2 ++ c.h3 ++ c.h4

end Sys2Proof.Machine
end

