-- ==== Sys2Proof/Machine/Compression.lean ====
section
/-! DEFINITION. The compression core (R80 to R96): a pure function, no flag, no fault, no state of its own. -/

namespace Sys2Proof.Machine

/-- `rotl(x, n)`: circular left shift, the amount taken modulo 32 (R80). -/
def rotl (x : Word) (n : Nat) : Word :=
  if n % 32 = 0 then x else (x <<< (n % 32)) ||| (x >>> (32 - n % 32))

/-- Ch (R81). -/
def ch (b c d : Word) : Word := (b &&& c) ||| (~~~b &&& d)

/-- Parity (R82). -/
def parity (b c d : Word) : Word := b ^^^ c ^^^ d

/-- Maj (R83). -/
def maj (b c d : Word) : Word := (b &&& c) ||| (b &&& d) ||| (c &&& d)

/-- The round function f_i, the first range that holds (R84, 90_conflicts.md C3). -/
def roundF (i : Nat) (b c d : Word) : Word :=
  if i < 20 then ch b c d
  else if i < 40 then parity b c d
  else if i < 60 then maj b c d
  else parity b c d

/-- The round constant K_i (R84). -/
def roundK (i : Nat) : Word :=
  if i < 20 then 0x5A827999#32
  else if i < 40 then 0x6ED9EBA1#32
  else if i < 60 then 0x8F1BBCDC#32
  else 0xCA62C1D6#32

/-- The schedule word that follows the words so far, t of them: W[t] from W[t-3], W[t-8], W[t-14] and W[t-16] (R87). -/
def scheduleWord (w : List Word) : Word :=
  rotl (w.getD (w.length - 3) 0#32 ^^^ w.getD (w.length - 8) 0#32 ^^^ w.getD (w.length - 14) 0#32
    ^^^ w.getD (w.length - 16) 0#32) 1

/-- `n` more schedule words, in increasing order of index (R87). -/
def extendSchedule : Nat → List Word → List Word
  | 0, w => w
  | n + 1, w => extendSchedule n (w ++ [scheduleWord w])

/-- The message schedule W[0..79] of the 16 words of a block (R86, R87). -/
def schedule (m : List Word) : List Word :=
  extendSchedule (Config.schedWords - Config.blockWords) m

/-- The working variables (R88). -/
structure Working where
  a : Word
  b : Word
  c : Word
  d : Word
  e : Word
  deriving DecidableEq, Repr

/-- The working variables before round 0 (R88). -/
def Working.start (s : Chain) : Working :=
  { a := s.h0, b := s.h1, c := s.h2, d := s.h3, e := s.h4 }

/-- Round i with schedule word `w`: the sum (R89) and then the shift (R90). -/
def roundStep (i : Nat) (w : Word) (v : Working) : Working :=
  { a := v.e + rotl v.a 5 + roundF i v.b v.c v.d + w + roundK i
    b := v.a
    c := rotl v.b 30
    d := v.c
    e := v.d }

/-- The rounds from round i on, one per schedule word, in order (R91). -/
def rounds : Nat → List Word → Working → Working
  | _, [], v => v
  | i, w :: ws, v => rounds (i + 1) ws (roundStep i w v)

/-- Additive chaining (R93). -/
def addWorking (s : Chain) (v : Working) : Chain :=
  { h0 := s.h0 + v.a, h1 := s.h1 + v.b, h2 := s.h2 + v.c, h3 := s.h3 + v.d, h4 := s.h4 + v.e }

/-- `COMPRESS(S, M)` (R92). -/
def compress (s : Chain) (m : List Word) : Chain :=
  addWorking s (rounds 0 (schedule m) (Working.start s))

/-! The interleaved form the spec allows an implementation (R94): only the last 16 schedule words are kept, W[i] is computed
in round i, and W[i-16] is discarded. -/

/-- The schedule word of a round i ≥ 16 from the window W[i-16], ..., W[i-1] (R94). -/
def windowWord (win : List Word) : Word :=
  rotl (win.getD 13 0#32 ^^^ win.getD 8 0#32 ^^^ win.getD 2 0#32 ^^^ win.getD 0 0#32) 1

/-- `n` rounds from round i ≥ 16 on, the window sliding by one word a round (R94). -/
def rollingRounds : Nat → Nat → List Word → Working → Working
  | 0, _, _, v => v
  | n + 1, i, win, v =>
    rollingRounds n (i + 1) (win.drop 1 ++ [windowWord win]) (roundStep i (windowWord win) v)

/-- COMPRESS with a 16-word schedule window (R94). -/
def compressRolling (s : Chain) (m : List Word) : Chain :=
  addWorking s (rollingRounds (Config.schedWords - Config.blockWords) 16 m (rounds 0 m (Working.start s)))

end Sys2Proof.Machine
end

