-- ==== Sys2Proof/Machine/State.lean ====
section
/-! DEFINITION. The state of CORE and of its two streams, and the state after reset (R20, R29, R31). -/

namespace Sys2Proof.Machine

/-- Why a step stops the machine: never. The spec's faults set FCODE and leave a next state (R132, R133, R138), a truncated
command is a hold that changes nothing (R135, log 3), and the fault state is a state that changes nothing (R140). With no
constructor the type says that no step ends in a fault; safe, since no behaviour of the hardware is left out by it. -/
inductive Fault : Type
  deriving DecidableEq, Repr

/-- Why a step answers no meaning. -/
inductive Refusal where
  /-- Raised by an arm of `exec` whose command has no meaning yet; no arm raises it in this model. Safe: a refused step
  proves nothing. -/
  | notModelled (mnemonic : String)
  deriving DecidableEq, Repr

/-- The state: the registers of CORE (R20), the bookkeeping of its streams (R29) and the reset pin (R162). -/
structure State where
  /-- H[0..4], the running state (R21). -/
  h : Chain
  /-- BUF, the message bits not yet forming a block, oldest first (R22). -/
  buf : Bits
  /-- BUFLEN, 10 bits (R23). -/
  bufLen : BitVec 10
  /-- TOTLEN, the message bits since the last boundary (R24). -/
  totLen : BitVec 64
  /-- FCODE, the sticky fault code (R27, R130). -/
  fcode : BitVec 2
  /-- CMD, the words the host has supplied so far (R29, R41). DESIGN CHOICE: a parameter of a run, held here; log 1. -/
  cmd : List Word
  /-- cp, how many words of CMD have been consumed (R29, R32). -/
  cp : Nat
  /-- RSP, the words CORE has emitted (R29, R42), unbounded as R161 says; log 4. -/
  rsp : List Word
  /-- The reset input `rst` as the next step samples it (R150, R162). DESIGN CHOICE: held in the state, log 2. -/
  rst : Bool
  deriving DecidableEq, Repr

/-- The machine right after RST at the start of a run (R31): no word supplied, none consumed, none emitted. -/
def State.reset : State :=
  { h := iv, buf := [], bufLen := 0#10, totLen := 0#64, fcode := 0#2, cmd := [], cp := 0, rsp := [], rst := false }

end Sys2Proof.Machine
end

