-- ==== Sys2Proof/Machine/Flags.lean ====
section
/-! DEFINITION. CORE has no condition codes; its only flag-like state is FCODE (R27, R130). Here are its values and the one
condition that is computed from a register. -/

namespace Sys2Proof.Machine

/-- FCODE 1: an illegal header word (R130, R132). -/
def illegalCommand : BitVec 2 := 1#2

/-- FCODE 2: TOTLEN + LEN would reach 2^64 (R130, R133). -/
def lengthOverflow : BitVec 2 := 2#2

/-- FCODE 3: COMPRESS was given a block that is not 512 bits; unreachable (R130, R134). -/
def blockSizeInvariant : BitVec 2 := 3#2

/-- The condition of LengthOverflow, on unbounded integers (R105, R133). -/
def overflows (totLen : BitVec 64) (len : Nat) : Bool :=
  decide (2 ^ 64 ≤ totLen.toNat + len)

/-- CORE is in the fault state (R140). -/
def faulted (s : State) : Bool := s.fcode != 0#2

end Sys2Proof.Machine
end

