-- ==== Sys2Proof/Machine/Operands.lean ====
section
/-! DEFINITION. The operands of ADD and FINAL: how an ADD's bits are split at the block boundary (R104), and the padded
buffer of a FINAL (R108). -/

namespace Sys2Proof.Machine

/-- k = 512 - BUFLEN: how many new bits fill the buffer to a whole block (R104). -/
def fillBits (s : State) : Nat := 512 - s.bufLen.toNat

/-- The first block an ADD compresses: the buffered bits, then the prefix of the new ones that fills it (R104). -/
def firstBlock (s : State) (bits : Bits) : Bits := s.buf ++ bits.take (fillBits s)

/-- What is left of the new bits after that prefix (R104). -/
def afterFill (s : State) (bits : Bits) : Bits := bits.drop (fillBits s)

/-- z, the number of zero bits of the padding of L buffered bits: (447 - L) mod 512 (R108). -/
def padZeros (l : Nat) : Nat := ((447 - (l : Int)) % 512).toNat

/-- `pad(B, T)`: a 1 bit, z zero bits, the 64-bit length (R108). -/
def pad (b : Bits) (t : BitVec 64) : Bits :=
  b ++ [true] ++ List.replicate (padZeros b.length) false ++ be64 t

end Sys2Proof.Machine
end

