-- ==== Sys2Proof/Machine/Ops.lean ====
section
/-! DEFINITION. The shared operations: raising a fault, the construction state, compressing whole blocks, emitting a digest,
the reset pin, the hold, and the host's moves. -/

namespace Sys2Proof.Machine

/-! Raising a fault, and the check of the fault state. -/

/-- `raise`: FCODE takes the code and the header word is consumed, and nothing else happens (R132, R133, R138, R139). -/
def raiseFault (code : BitVec 2) (s : State) : State :=
  { s with fcode := code, cp := s.cp + 1 }

/-- A command executes only when FCODE = 0; in the fault state nothing changes (R100, R140). -/
def whenEnabled (effect : State → State) (s : State) : State :=
  if faulted s then s else effect s

/-! The engine's registers. -/

/-- The construction state of the engine: H = IV, empty buffer, zero counters (R31, R101, R112). -/
def construct (s : State) : State :=
  { s with h := iv, buf := [], bufLen := 0#10, totLen := 0#64 }

/-- cp moves past a command of `n` words (R73). -/
def advance (n : Nat) (s : State) : State :=
  { s with cp := s.cp + n }

/-- TOTLEN counts the bits of an ADD, whether or not a block completes (R102). -/
def countBits (len : Nat) (s : State) : State :=
  { s with totLen := s.totLen + BitVec.ofNat 64 len }

/-- The short path of ADD: the bits are appended to the buffer (R103). -/
def appendBits (bits : Bits) (s : State) : State :=
  { s with buf := s.buf ++ bits, bufLen := s.bufLen + BitVec.ofNat 10 bits.length }

/-- The end of the block path of ADD: the new running state, and the remainder replacing the buffer (R104, R105). -/
def storeBlocks (c : Chain) (rest : Bits) (s : State) : State :=
  { s with h := c, buf := rest, bufLen := BitVec.ofNat 10 rest.length }

/-- Five pushes onto the response stream, H[0] first (R70, R111). -/
def pushDigest (c : Chain) (s : State) : State :=
  { s with rsp := s.rsp ++ chainWords c }

/-! Compressing whole blocks. -/

/-- COMPRESS of a block given as bits: `none` where the block is not 512 bits, the condition of BlockSizeInvariant (R134,
log 7). -/
def compressBlock (c : Chain) (block : Bits) : Option Chain :=
  if block.length = 512 then some (compress c (words block)) else none

/-- The loop of R105 over the new bits: while 512 or more are left, compress the next 512. `fuel` bounds the passes; the
number of whole blocks in `rest` is enough. -/
def absorb : Nat → Chain → Bits → Option (Chain × Bits)
  | 0, c, rest => some (c, rest)
  | fuel + 1, c, rest =>
    if rest.length < 512 then some (c, rest)
    else
      match compressBlock c (rest.take 512) with
      | some c' => absorb fuel c' (rest.drop 512)
      | none => none

/-- The block path of ADD: fill and compress the first block, then the whole blocks of what is left (R104, R105). -/
def addBlocks (s : State) (bits : Bits) : Option (Chain × Bits) :=
  match compressBlock s.h (firstBlock s bits) with
  | some c => absorb ((afterFill s bits).length / 512) c (afterFill s bits)
  | none => none

/-- The one or two compressions of a FINAL over the padded buffer (R110). -/
def finalChain (s : State) : Option Chain :=
  let p := pad s.buf s.totLen
  match compressBlock s.h (p.take 512) with
  | some c => if 512 < p.length then compressBlock c ((p.drop 512).take 512) else some c
  | none => none

/-! Reset and hold. -/

/-- The stream holds an ADD header at cp whose LEN overflows TOTLEN: the check made on the header alone (R74, R137). -/
def headerOverflows (s : State) : Bool :=
  match s.cmd.drop s.cp with
  | w :: _ => isAddHeader w && overflows s.totLen (lenField w).toNat
  | [] => false

/-- CORE is held: the host has supplied fewer words than the command at cp needs, none of them yet included (R135). -/
def held (s : State) : Bool :=
  !faulted s && decode s.cmd s.cp == .needWord && !headerOverflows s

/-- Where cp stands after RST: a command partly received is discarded with the words supplied for it, and otherwise the
stream goes on where it was (R152, R160). DEDUCED, see log 5. -/
def resetCp (s : State) : Nat :=
  if held s then max s.cp s.cmd.length else s.cp

/-- RST (R31, R150): the construction state and FCODE = 0; words already emitted stay. DESIGN CHOICE: the step that takes RST
ends the pulse of the pin, log 2. -/
def applyRst (s : State) : State :=
  { construct s with fcode := 0#2, cp := resetCp s, rst := false }

/-- What comes before any decoding: RST overrides everything (R137, R150), and in the fault state nothing is decoded and
nothing changes (R140, R141). -/
def beforeDecode (s : State) : Option State :=
  if s.rst then some (applyRst s)
  else if faulted s then some s
  else none

/-- The stream ends before the command does: an ADD header that overflows faults at once (R137), else CORE waits and no
state changes (R135). DESIGN CHOICE: a wait is a step to the same state, log 3. -/
def awaitWords (s : State) : State :=
  if headerOverflows s then raiseFault lengthOverflow s else s

/-- An illegal header word raises IllegalCommand (R132). -/
def rejectHeader (s : State) : State := raiseFault illegalCommand s

/-! The host's moves and what it sees. -/

/-- The host supplies command words (R41, R159). -/
def supply (ws : List Word) (s : State) : State := { s with cmd := s.cmd ++ ws }

/-- The host raises the reset pin for the next step (R150, R162). -/
def requestRst (s : State) : State := { s with rst := true }

/-- The output `fcode`: FCODE while `rst` is low (R27, R162). DESIGN CHOICE: while `rst` is high, where the spec leaves every
output unspecified (U14), a free value, log 9. -/
def fcodeOut (s : State) : BitVec 2 := if s.rst then Config.fcodeInReset s.cp else s.fcode

/-- The output `cmd_ready` between two commands: low while FCODE is not 0, with `rst` low (R140, R162). DESIGN CHOICE: while
`rst` is high, where the spec leaves every output unspecified (U14), a free value, log 9. -/
def cmdReady (s : State) : Bool := if s.rst then Config.cmdReadyInReset s.cp else !faulted s

/-- The stream with `ws` standing at cp, in a CORE that takes them as its next command: the model's stand-in for the host
supplying them (log 6). Words of CMD before cp and beyond `ws` stay. -/
def placeWords (ws : List Word) (s : State) : State :=
  { s with
    cmd := s.cmd.take s.cp ++ List.replicate (s.cp - s.cmd.length) 0#32 ++ ws ++ s.cmd.drop (s.cp + ws.length)
    fcode := 0#2
    rst := false }

end Sys2Proof.Machine
end

