-- ==== Sys2Proof/Machine/Engine.lean ====
section
/-! DEFINITION. The streaming engine: the meanings of INIT, ADD and FINAL (R100 to R113). -/

namespace Sys2Proof.Machine

/-- INIT (R101): the construction state, whatever the engine held before. -/
def initEffect (s : State) : State :=
  advance 1 (construct s)

/-- ADD (R105): the overflow check, then the counter, then the short path (R103) or the block path (R104). A first block
that is not 512 bits, which no reachable state has, raises BlockSizeInvariant (R134). -/
def addEffect (bits : Bits) (s : State) : State :=
  if overflows s.totLen bits.length then raiseFault lengthOverflow s
  else if s.bufLen.toNat + bits.length < 512 then
    advance (1 + payloadWords bits.length) (appendBits bits (countBits bits.length s))
  else
    match addBlocks s bits with
    | some (c, rest) => advance (1 + payloadWords bits.length) (storeBlocks c rest (countBits bits.length s))
    | none => raiseFault blockSizeInvariant s

/-- FINAL (R110): compress the padded buffer, emit the digest, return to the construction state. -/
def finalEffect (s : State) : State :=
  match finalChain s with
  | some c => advance 1 (construct (pushDigest c s))
  | none => raiseFault blockSizeInvariant s

/-- The meaning of INIT, executed only when FCODE = 0 (R101, R140). -/
def execInit (s : State) : Host.Outcome State Fault Refusal :=
  .next (whenEnabled initEffect s)

/-- The meaning of ADD, executed only when FCODE = 0 (R105, R140). -/
def execAdd (bits : Bits) (s : State) : Host.Outcome State Fault Refusal :=
  .next (whenEnabled (addEffect bits) s)

/-- The meaning of FINAL, executed only when FCODE = 0 (R110, R140). -/
def execFinal (s : State) : Host.Outcome State Fault Refusal :=
  .next (whenEnabled finalEffect s)

end Sys2Proof.Machine
end

