-- ==== Sys2Proof/Machine/Dispatch.lean ====
section
/-! DEFINITION. One arm per command, each one direct call of its meaning. -/

namespace Sys2Proof.Machine

def exec (i : Instr) (s : State) : Host.Outcome State Fault Refusal :=
  match i with
  | .init => Sys2Proof.Machine.execInit s
  | .add bits => Sys2Proof.Machine.execAdd bits s
  | .final => Sys2Proof.Machine.execFinal s

end Sys2Proof.Machine
end

