-- ==== Sys2Proof/Machine/Step.lean ====
section
/-! DEFINITION. One step of CORE: one whole command (R3), or RST, or a wait. -/

namespace Sys2Proof.Machine

/-- One step: RST and the fault state come before any decoding; then the words at cp are decoded (R74), and the command is
executed, the illegal header faults, or CORE waits. -/
def step (s : State) : Host.Outcome State Fault Refusal :=
  match beforeDecode s with
  | some t => .next t
  | none =>
    match decode s.cmd s.cp with
    | .needWord => .next (awaitWords s)
    | .illegal _ => .next (rejectHeader s)
    | .command i _ => exec i s

/-- The state with the command of `nbits` bits `w` standing where `step` takes its next header (log 6). -/
def State.withFetchWord (s : State) (nbits w : Nat) : State :=
  placeWords (tableWords nbits w) s

end Sys2Proof.Machine
end

