-- ==== Sys2Proof/Machine/Adapters.lean ====
section
/-! DEFINITION. What stands around CORE and is not part of it (R5): the two adapters (R117, R118) and the pseudo-commands of
the written notation (R75, R76). The machine calls none of these. -/

namespace Sys2Proof.Machine

/-- Bytes to bits: each byte most significant bit first, in input order (R117). -/
def bitsOfBytes (m : List (BitVec 8)) : Bits :=
  m.flatMap fun b => (List.range 8).map fun k => b.getLsbD (7 - k)

/-- A lower-case hexadecimal digit. -/
def hexDigit (n : Nat) : Char :=
  ['0', '1', '2', '3', '4', '5', '6', '7', '8', '9', 'a', 'b', 'c', 'd', 'e', 'f'].getD n '0'

/-- A word as 8 hexadecimal digits, most significant first (R118). -/
def hexOfWord (w : Word) : List Char :=
  (List.range 8).map fun k => hexDigit (w.toNat / 16 ^ (7 - k) % 16)

/-- Digest to text: 40 lower-case hexadecimal characters, H[0]'s digits first (R118). -/
def digestText (ws : List Word) : List Char :=
  ws.flatMap hexOfWord

/-- The pseudo-command ADDB of a byte string (R76). -/
def addb (m : List (BitVec 8)) : Instr := .add (bitsOfBytes m)

/-- The pseudo-command HASH of a message given in pieces (R76). -/
def hash (pieces : List Bits) : List Instr :=
  .init :: (pieces.map .add ++ [.final])

/-- The encoding of a listing: the encodings of its lines, in order (R75). -/
def encodeListing (is : List Instr) : List Word :=
  is.flatMap encode

end Sys2Proof.Machine
end

