-- ==== Sys2Proof/Safety.lean ====
section
/-! DEFINITION. The terms in which claims about CORE are stated: how a run may stand still (R135, R140, R164), the invariants
of a state at rest (R26, R120), and the function CORE computes (R107, R119). -/

namespace Sys2Proof

open Machine

namespace Safety

/-- A run has ended well: every word consumed, at rest, no fault (R164). -/
def Final (s : State) : Prop :=
  s.cp = s.cmd.length ∧ s.fcode = 0#2

/-- CORE waits inside a command whose words are not all supplied (R135). -/
def Held (s : State) : Prop := held s = true ∧ s.cp < s.cmd.length

/-- The header at cp is an ADD that does not overflow and whose payload words are not all supplied: the partly received
command of R135 and R160. -/
def PartlyReceived (s : State) : Prop :=
  s.fcode = 0#2 ∧ ∃ w, s.cmd[s.cp]? = some w ∧ w.extractLsb' 24 8 = 0x02#8 ∧
    s.totLen.toNat + (w.extractLsb' 0 24).toNat < 2 ^ 64 ∧
    s.cmd.length < s.cp + 1 + ((w.extractLsb' 0 24).toNat + 31) / 32

/-- A fault has been raised and RST has not come (R140). -/
def Faulted (s : State) : Prop := s.fcode ≠ 0#2

/-- BUFLEN says how long BUF is, and BUF is shorter than a block (R22, R23). -/
structure BufferOk (s : State) : Prop where
  len_eq : s.bufLen.toNat = s.buf.length
  len_lt : s.buf.length < 512

/-- The invariants of a state at rest: R120 (BUFLEN = len(BUF), BUFLEN ≤ 511, BUFLEN = TOTLEN mod 512, whole digests on
RSP), the code R134 calls unreachable, and that no more words are consumed than were supplied (R29). -/
structure Inv (s : State) : Prop where
  buffer : BufferOk s
  totLen_mod : s.buf.length = s.totLen.toNat % 512
  rsp_digests : s.rsp.length % 5 = 0
  no_blockSize : s.fcode ≠ 3#2
  cp_le : s.cp ≤ s.cmd.length

/-- The engine's part of the state: running state, buffer, its length, the message length (R112, R116). -/
structure Engine where
  h : Chain
  buf : Bits
  bufLen : BitVec 10
  totLen : BitVec 64
  deriving DecidableEq, Repr

/-- The engine's part of a state. -/
def engine (s : State) : Engine :=
  { h := s.h, buf := s.buf, bufLen := s.bufLen, totLen := s.totLen }

/-- The engine as construct leaves it (R31, R112). -/
def freshEngine : Engine :=
  { h := { h0 := 0x67452301#32, h1 := 0xEFCDAB89#32, h2 := 0x98BADCFE#32, h3 := 0x10325476#32, h4 := 0xC3D2E1F0#32 }
    buf := []
    bufLen := 0#10
    totLen := 0#64 }

/-- A header word is illegal: its opcode names no command, or it is an INIT or FINAL with bits 23:0 not zero (R71). -/
def IllegalHeader (w : Word) : Prop :=
  (w.extractLsb' 24 8 ≠ 0x01#8 ∧ w.extractLsb' 24 8 ≠ 0x02#8 ∧ w.extractLsb' 24 8 ≠ 0x03#8) ∨
    ((w.extractLsb' 24 8 = 0x01#8 ∨ w.extractLsb' 24 8 = 0x03#8) ∧ w.extractLsb' 0 24 ≠ 0#24)

/-- The consecutive whole 512-bit slices of a bit sequence, in order (R107, R119). -/
def wholeBlocks (m : Bits) : List Bits :=
  (List.range (m.length / 512)).map fun j => (m.drop (512 * j)).take 512

/-- What follows the last whole slice (R107). -/
def remainder (m : Bits) : Bits :=
  m.drop (512 * (m.length / 512))

/-- The compressions of the whole slices of a bit sequence, each taking the running state the one before it gave (R104). -/
def chainOver (c : Chain) (m : Bits) : Chain :=
  (wholeBlocks m).foldl (fun c b => compress c (words b)) c

/-- A message with its padding: a 1 bit, the least number of zeros that brings the length to 448 modulo 512, and the 64-bit
length of the message (R119). -/
def paddedMessage (m : Bits) : Bits :=
  m ++ [true] ++ List.replicate (padZeros m.length) false ++ be64 (BitVec.ofNat 64 m.length)

/-- The five words of the SHA-1 digest of a message of less than 2^64 bits (R119). -/
def sha1 (m : Bits) : List Word :=
  chainWords (chainOver iv (paddedMessage m))

/-- Commands executed one after another (R52). -/
def execAll : List Instr → State → Host.Outcome State Fault Refusal
  | [], s => .next s
  | i :: is, s =>
    match exec i s with
    | .next t => execAll is t
    | .fault r => .fault r
    | .refused r => .refused r

end Safety

end Sys2Proof
end

