-- ==== Sys2Proof/Certificates/Slice0/Obligations.lean ====
section
/-! DEFINITION. The statements for the provers. -/

open Sys2Proof Sys2Proof.Machine Sys2Proof.Safety

/-! Reset. -/

/-- Reset leaves the construction state with FCODE = 0 and nothing consumed or emitted (10_state.md section 8). -/
def Obligations.ResetLeavesConstructionState : Prop :=
  engine State.reset = freshEngine ∧ State.reset.fcode = 0#2 ∧ State.reset.cp = 0 ∧ State.reset.rsp = []

/-- RST, applied in any state, gives the construction state and FCODE = 0, retracts no word already emitted, and is the only
event that leaves the fault state (R150). -/
def Obligations.RstTakesConstructionState : Prop :=
  ∀ s : State,
    (s.rst = true →
      ∃ t, step s = .next t ∧ engine t = freshEngine ∧ t.fcode = 0#2 ∧ t.rsp = s.rsp ∧ t.cmd = s.cmd) ∧
    (∀ t, s.fcode ≠ 0#2 → step s = .next t → t.fcode = 0#2 → s.rst = true)

/-- The model's choice for RST while CORE waits inside a command (log 5, deduced from R160): the words supplied for it are
discarded, so that the next word is a header; in every other state (at a command boundary, before an illegal header, before
an ADD that overflows, in the fault state) the stream goes on where it was. -/
def Obligations.RstDiscardsPartialCommand : Prop :=
  ∀ s : State, s.rst = true →
    ∃ t, step s = .next t ∧ (PartlyReceived s → t.cp = s.cmd.length) ∧ (¬PartlyReceived s → t.cp = s.cp)

/-! INIT. -/

/-- INIT puts the engine into the construction state whatever it held, consumes its word and changes nothing else (R101). -/
def Obligations.InitConstructs : Prop :=
  ∀ s : State, s.fcode = 0#2 →
    exec .init s = .next { s with
      h := { h0 := 0x67452301#32, h1 := 0xEFCDAB89#32, h2 := 0x98BADCFE#32, h3 := 0x10325476#32, h4 := 0xC3D2E1F0#32 }
      buf := []
      bufLen := 0#10
      totLen := 0#64
      cp := s.cp + 1 }

/-! ADD. -/

/-- ADD counts exactly the bits it is given, whether or not a block completes; only the overflowing ADD does not (R102). -/
def Obligations.AddCountsEveryBit : Prop :=
  ∀ (s : State) (bits : Bits), s.fcode = 0#2 → BufferOk s →
    ∃ t, exec (.add bits) s = .next t ∧
      (s.totLen.toNat + bits.length < 2 ^ 64 → t.totLen.toNat = s.totLen.toNat + bits.length) ∧
      (2 ^ 64 ≤ s.totLen.toNat + bits.length → t.totLen = s.totLen)

/-- The short path: the bits are appended and nothing is compressed (R103). -/
def Obligations.AddShortPath : Prop :=
  ∀ (s : State) (bits : Bits), s.fcode = 0#2 → s.totLen.toNat + bits.length < 2 ^ 64 →
    s.bufLen.toNat + bits.length < 512 →
    exec (.add bits) s = .next { s with
      buf := s.buf ++ bits
      bufLen := s.bufLen + BitVec.ofNat 10 bits.length
      totLen := s.totLen + BitVec.ofNat 64 bits.length
      cp := s.cp + 1 + (bits.length + 31) / 32 }

/-- The block path: a prefix of k = 512 - BUFLEN bits fills the first block, the following whole blocks are slices of the
rest, and what is left replaces the buffer (R104). -/
def Obligations.AddBlockPath : Prop :=
  ∀ (s : State) (bits : Bits) (k : Nat), s.fcode = 0#2 → BufferOk s → s.totLen.toNat + bits.length < 2 ^ 64 →
    512 ≤ s.bufLen.toNat + bits.length → k = 512 - s.bufLen.toNat →
    1 ≤ k ∧ k ≤ 512 ∧ k ≤ bits.length ∧ (remainder (bits.drop k)).length < 512 ∧
    exec (.add bits) s = .next { s with
      h := chainOver (compress s.h (words (s.buf ++ bits.take k))) (bits.drop k)
      buf := remainder (bits.drop k)
      bufLen := BitVec.ofNat 10 (remainder (bits.drop k)).length
      totLen := s.totLen + BitVec.ofNat 64 bits.length
      cp := s.cp + 1 + (bits.length + 31) / 32 }

/-- The count law: an ADD compresses the floor((BUFLEN + LEN) / 512) consecutive slices of BUF ++ bits, in order, and keeps
what follows the last one (R107, which the spec marks as derived from R105). -/
def Obligations.AddCountLaw : Prop :=
  ∀ (s : State) (bits : Bits), s.fcode = 0#2 → BufferOk s → s.totLen.toNat + bits.length < 2 ^ 64 →
    (wholeBlocks (s.buf ++ bits)).length = (s.bufLen.toNat + bits.length) / 512 ∧
    exec (.add bits) s = .next { s with
      h := (wholeBlocks (s.buf ++ bits)).foldl (fun c b => compress c (words b)) s.h
      buf := (s.buf ++ bits).drop (512 * ((s.bufLen.toNat + bits.length) / 512))
      bufLen := BitVec.ofNat 10 ((s.bufLen.toNat + bits.length) % 512)
      totLen := s.totLen + BitVec.ofNat 64 bits.length
      cp := s.cp + 1 + (bits.length + 31) / 32 }

/-- Corner cases of ADD (42_streaming_engine.md section 3): the empty ADD only advances cp; 511 bits at rest are kept; a
buffer filled to exactly 512 bits is compressed and left empty; from an empty buffer whole blocks come from the new bits
alone; after the block path the new buffer is the end of the new bits. -/
def Obligations.AddCornerCases : Prop :=
  ∀ (s : State) (bits : Bits), s.fcode = 0#2 → BufferOk s → s.totLen.toNat + bits.length < 2 ^ 64 →
    ∃ t, exec (.add bits) s = .next t ∧
      (bits = [] → t = { s with cp := s.cp + 1 }) ∧
      (s.bufLen.toNat + bits.length = 511 → t.h = s.h ∧ t.bufLen = 511#10 ∧ t.buf = s.buf ++ bits) ∧
      (s.bufLen.toNat + bits.length = 512 →
        t.h = compress s.h (words (s.buf ++ bits)) ∧ t.buf = [] ∧ t.bufLen = 0#10) ∧
      (s.bufLen = 0#10 → ∀ m, bits.length = 512 * m → t.h = chainOver s.h bits ∧ t.buf = []) ∧
      (512 ≤ s.bufLen.toNat + bits.length → ∃ used, bits = used ++ t.buf)

/-- LengthOverflow: an ADD header that would carry TOTLEN to 2^64 faults at once, payload supplied or not, and changes only
FCODE and cp; the command itself does the same; below the ceiling there is no fault (R133). -/
def Obligations.AddOverflowFaults : Prop :=
  (∀ (s : State) (w : Word), s.rst = false → s.fcode = 0#2 → s.cmd[s.cp]? = some w → w.extractLsb' 24 8 = 0x02#8 →
    2 ^ 64 ≤ s.totLen.toNat + (w.extractLsb' 0 24).toNat →
    step s = .next { s with fcode := 2#2, cp := s.cp + 1 }) ∧
  (∀ (s : State) (bits : Bits), s.fcode = 0#2 → 2 ^ 64 ≤ s.totLen.toNat + bits.length →
    exec (.add bits) s = .next { s with fcode := 2#2, cp := s.cp + 1 }) ∧
  (∀ (s : State) (bits : Bits), s.fcode = 0#2 → BufferOk s → s.totLen.toNat + bits.length < 2 ^ 64 →
    ∃ t, exec (.add bits) s = .next t ∧ t.fcode = 0#2)

/-! Padding and FINAL. -/

/-- `pad`: a 1 bit, the least number z of zeros that brings the length to 448 modulo 512, and the 64-bit length most
significant bit first (R108). -/
def Obligations.PadShape : Prop :=
  ∀ (b : Bits) (t : BitVec 64), b.length < 512 →
    ∃ z : Nat,
      (∃ len : Bits, pad b t = b ++ [true] ++ List.replicate z false ++ len ∧ len.length = 64 ∧
        ∀ p, p < 64 → len[p]? = some (t.getLsbD (63 - p))) ∧
      (b.length + 1 + z) % 512 = 448 ∧
      (∀ z', (b.length + 1 + z') % 512 = 448 → z ≤ z') ∧
      (b.length ≤ 447 → z = 447 - b.length) ∧
      (448 ≤ b.length → z = 959 - b.length)

/-- The padded buffer is one block for up to 447 buffered bits and two for 448 to 511, the 1 bit stands right after the
buffered bits, and every bit between it and the length field is 0 (R109, whose corner cases the spec marks as derived from
R108). -/
def Obligations.PaddedBufferIsOneOrTwoBlocks : Prop :=
  ∀ (b : Bits) (t : BitVec 64), b.length < 512 →
    (b.length ≤ 447 → (pad b t).length = 512) ∧
    (448 ≤ b.length → (pad b t).length = 1024) ∧
    (pad b t)[b.length]? = some true ∧
    (∀ p, b.length < p → p < (pad b t).length - 64 → (pad b t)[p]? = some false) ∧
    (pad b t).drop ((pad b t).length - 64) = be64 t

/-- FINAL compresses the padded buffer, one block or two, emits the five words of the result, H[0] first, and leaves the
construction state (R110). -/
def Obligations.FinalEmitsDigest : Prop :=
  ∀ (s : State) (c : Chain), s.fcode = 0#2 → BufferOk s →
    c = (if s.buf.length ≤ 447 then compress s.h (words (pad s.buf s.totLen))
         else compress (compress s.h (words ((pad s.buf s.totLen).take 512))) (words ((pad s.buf s.totLen).drop 512))) →
    exec .final s = .next { s with
      h := { h0 := 0x67452301#32, h1 := 0xEFCDAB89#32, h2 := 0x98BADCFE#32, h3 := 0x10325476#32, h4 := 0xC3D2E1F0#32 }
      buf := []
      bufLen := 0#10
      totLen := 0#64
      rsp := s.rsp ++ [c.h0, c.h1, c.h2, c.h3, c.h4]
      cp := s.cp + 1 }

/-- After FINAL the engine is what INIT and RST leave, whatever it held before (R112). -/
def Obligations.FinalReturnsToConstruction : Prop :=
  ∀ s : State, s.fcode = 0#2 →
    ∃ t u v, exec .final s = .next t ∧ exec .init s = .next u ∧ step (requestRst s) = .next v ∧
      engine t = engine u ∧ engine t = engine v ∧ engine t = freshEngine

/-- A second FINAL emits the digest of the empty message, and so does the first when nothing was added before it (R113, which
the spec marks as derived from R110 and R112). -/
def Obligations.FinalTwiceEmitsEmptyDigest : Prop :=
  ∀ s : State, s.fcode = 0#2 →
    ∃ t u, exec .final s = .next t ∧ exec .final t = .next u ∧
      u.rsp = t.rsp ++ [0xDA39A3EE#32, 0x5E6B4B0D#32, 0x3255BFEF#32, 0x95601890#32, 0xAFD80709#32] ∧
      (engine s = freshEngine →
        t.rsp = s.rsp ++ [0xDA39A3EE#32, 0x5E6B4B0D#32, 0x3255BFEF#32, 0x95601890#32, 0xAFD80709#32])

/-! Laws of the streaming engine. -/

/-- INIT and FINAL never fault, and ADD faults only at the length ceiling (R121). -/
def Obligations.OnlyAddFaultsAndOnlyAtTheCeiling : Prop :=
  (∀ s : State, s.fcode = 0#2 → ∃ t, exec .init s = .next t ∧ t.fcode = 0#2) ∧
  (∀ s : State, s.fcode = 0#2 → ∃ t, exec .final s = .next t ∧ t.fcode = 0#2) ∧
  (∀ (s : State) (bits : Bits), s.fcode = 0#2 → BufferOk s →
    ∃ t, exec (.add bits) s = .next t ∧ (t.fcode ≠ 0#2 ↔ 2 ^ 64 ≤ s.totLen.toNat + bits.length))

/-- Chunking invariance: ADDs of any number of pieces leave the engine as one ADD of the joined bits does, so the digests
agree, and the empty ADD changes nothing of it (R116, which the spec marks as derived from R107). -/
def Obligations.ChunkingInvariance : Prop :=
  ∀ (s : State) (chunks : List Bits), s.fcode = 0#2 → BufferOk s → s.totLen.toNat + chunks.flatten.length < 2 ^ 64 →
    ∃ t₂ t u₂ u e, execAll (chunks.map .add) s = .next t₂ ∧ exec (.add chunks.flatten) s = .next t ∧
      engine t₂ = engine t ∧ exec .final t₂ = .next u₂ ∧ exec .final t = .next u ∧ u₂.rsp = u.rsp ∧
      exec (.add []) s = .next e ∧ engine e = engine s

/-- The function computed: from a boundary, any sequence of ADDs and then FINAL emits the SHA-1 digest of the message, over
n / 512 + 1 or n / 512 + 2 blocks (R119, which the spec marks as derived). -/
def Obligations.FinalComputesSha1OfMessage : Prop :=
  ∀ (s : State) (chunks : List Bits), s.fcode = 0#2 → engine s = freshEngine → chunks.flatten.length < 2 ^ 64 →
    ∃ t u, execAll (chunks.map .add) s = .next t ∧ exec .final t = .next u ∧
      u.rsp = s.rsp ++ sha1 chunks.flatten ∧
      (paddedMessage chunks.flatten).length = 512 * (wholeBlocks (paddedMessage chunks.flatten)).length ∧
      (wholeBlocks (paddedMessage chunks.flatten)).length =
        chunks.flatten.length / 512 + (if chunks.flatten.length % 512 ≤ 447 then 1 else 2)

/-- Determinism: two engines at a boundary that are given the same message, in whatever pieces, emit the same five words
(R115, which the spec marks as derived). -/
def Obligations.DigestDependsOnMessageAlone : Prop :=
  ∀ (s₁ s₂ : State) (c₁ c₂ : List Bits), s₁.fcode = 0#2 → s₂.fcode = 0#2 → engine s₁ = freshEngine →
    engine s₂ = freshEngine → c₁.flatten = c₂.flatten → c₁.flatten.length < 2 ^ 64 →
    ∃ u₁ u₂ d, execAll (c₁.map .add ++ [.final]) s₁ = .next u₁ ∧ execAll (c₂.map .add ++ [.final]) s₂ = .next u₂ ∧
      d.length = 5 ∧ u₁.rsp = s₁.rsp ++ d ∧ u₂.rsp = s₂.rsp ++ d

/-- Every block that reaches COMPRESS has 512 bits: the first block of an ADD, and the blocks of a FINAL in every state, so
the reserved fault is never raised (60_exceptions.md section 2). -/
def Obligations.EveryCompressedBlockHas512Bits : Prop :=
  (∀ (s : State) (bits : Bits), BufferOk s → 512 ≤ s.bufLen.toNat + bits.length →
    (firstBlock s bits).length = 512 ∧ (addBlocks s bits).isSome = true) ∧
  (∀ s : State, ((pad s.buf s.totLen).take 512).length = 512 ∧
    (512 < (pad s.buf s.totLen).length → (((pad s.buf s.totLen).drop 512).take 512).length = 512) ∧
    (finalChain s).isSome = true)

/-- The invariants of a state at rest hold after reset (10_state.md section 3, 42_streaming_engine.md section 6). -/
def Obligations.InvHoldsAtReset : Prop :=
  Inv State.reset

/-- Every step keeps the invariants: BUFLEN = len(BUF) ≤ 511, BUFLEN = TOTLEN mod 512, whole digests on RSP, no
BlockSizeInvariant, cp within the words supplied (R26, R120 and R134, which the spec marks as derived). -/
def Obligations.InvKeptByEveryStep : Prop :=
  ∀ s t : State, Inv s → step s = .next t → Inv t

/-- What each command leaves unchanged, from every state: INIT and FINAL keep FCODE, CMD and the pin; INIT and ADD emit
nothing; an ADD that faults keeps the engine, one that does not keeps FCODE, and one on the short path keeps H; RSP is only
appended to. -/
def Obligations.CommandFrames : Prop :=
  ∀ s t : State,
    (exec .init s = .next t → t.fcode = s.fcode ∧ t.cmd = s.cmd ∧ t.rsp = s.rsp ∧ t.rst = s.rst) ∧
    (∀ bits, exec (.add bits) s = .next t → t.cmd = s.cmd ∧ t.rsp = s.rsp ∧ t.rst = s.rst ∧
      (t.fcode = s.fcode ∨ (s.fcode = 0#2 ∧ engine t = engine s)) ∧
      (s.bufLen.toNat + bits.length < 512 → t.h = s.h)) ∧
    (exec .final s = .next t → t.fcode = s.fcode ∧ t.cmd = s.cmd ∧ t.rst = s.rst ∧
      ∃ ws, t.rsp = s.rsp ++ ws ∧ (s.fcode = 0#2 → ws.length = 5))

/-! Faults and holds. -/

/-- IllegalCommand: an illegal header word is consumed, FCODE becomes 1, and nothing else changes (R132). -/
def Obligations.IllegalHeaderFaults : Prop :=
  ∀ (s : State) (w : Word), s.rst = false → s.fcode = 0#2 → s.cmd[s.cp]? = some w → IllegalHeader w →
    step s = .next { s with fcode := 1#2, cp := s.cp + 1 }

/-- A truncated command is a hold: no header, or an ADD whose payload is not all there and that does not overflow, changes
nothing; supplying the missing words, and they alone, lets the ADD execute (R135). The model's choice (log 3): R135 says that
CORE has no enabled step there, and the model's `step` answers the same state. -/
def Obligations.TruncatedCommandHolds : Prop :=
  ∀ s : State, s.rst = false → s.fcode = 0#2 →
    (s.cmd.length ≤ s.cp → step s = .next s) ∧
    (∀ w, s.cmd[s.cp]? = some w → w.extractLsb' 24 8 = 0x02#8 →
      s.totLen.toNat + (w.extractLsb' 0 24).toNat < 2 ^ 64 →
      s.cmd.length < s.cp + 1 + ((w.extractLsb' 0 24).toNat + 31) / 32 →
      step s = .next s ∧
      ∀ more, (s.cmd.length + more.length < s.cp + 1 + ((w.extractLsb' 0 24).toNat + 31) / 32 →
          step (supply more s) = .next (supply more s)) ∧
        (s.cp + 1 + ((w.extractLsb' 0 24).toNat + 31) / 32 ≤ s.cmd.length + more.length →
          ∃ bits n, decode (s.cmd ++ more) s.cp = .command (.add bits) n ∧
            bits.length = (w.extractLsb' 0 24).toNat ∧
            step (supply more s) = exec (.add bits) (supply more s)))

/-- The fault state: while FCODE is not 0 and RST does not come, no step and no command changes anything, INIT included,
`cmd_ready` is low and the output `fcode` carries FCODE (R140). With `rst` high the outputs are left open (log 9). -/
def Obligations.FaultStateIsSticky : Prop :=
  ∀ s : State, s.fcode ≠ 0#2 →
    (s.rst = false → step s = .next s ∧ cmdReady s = false ∧ fcodeOut s = s.fcode) ∧ (∀ i, exec i s = .next s)

/-- Faults are precise: a step that raises a fault has consumed the header word and changed nothing else (R139). -/
def Obligations.FaultsArePrecise : Prop :=
  ∀ s t : State, s.fcode = 0#2 → step s = .next t → t.fcode ≠ 0#2 →
    t = { s with fcode := t.fcode, cp := s.cp + 1 }

/-- FCODE is written only by a fault, from 0, and by RST, to 0 (10_state.md section 4). -/
def Obligations.FcodeWrittenByFaultsAndRstOnly : Prop :=
  ∀ s t : State, step s = .next t → t.fcode ≠ s.fcode →
    (s.rst = true ∧ t.fcode = 0#2) ∨ (s.rst = false ∧ s.fcode = 0#2)

/-- A run stands still exactly when it is final, held or faulted, and no two of these at once; in every other state the step
consumes at least one word (70_reset_and_hazards.md sections 5 and 6). The model's choice (log 3): to stand still is a step
that answers the same state, where R135 says that CORE has no enabled step. -/
def Obligations.RunStandsStillOnlyWhenFinalHeldOrFaulted : Prop :=
  ∀ s : State, s.rst = false → s.cp ≤ s.cmd.length →
    (step s = .next s ↔ Final s ∨ Held s ∨ Faulted s) ∧
    ¬(Final s ∧ Held s) ∧ ¬(Final s ∧ Faulted s) ∧ ¬(Held s ∧ Faulted s) ∧
    (¬(Final s ∨ Held s ∨ Faulted s) → ∃ t, step s = .next t ∧ s.cp < t.cp)

/-! The decoder and the step. -/

/-- A step runs the decoded command: with no RST and no fault pending, the command the words at cp decode to. -/
def Obligations.StepRunsDecodedCommand : Prop :=
  ∀ (s : State) (i : Instr) (n : Nat), s.rst = false → s.fcode = 0#2 → decode s.cmd s.cp = .command i n →
    step s = exec i s

/-- Every step of every state answers a next state: there is no refusal and no machine fault. That this takes in a held CORE,
which R135 says has no enabled step, is the model's choice (log 3). -/
def Obligations.StepAlwaysAnswersNext : Prop :=
  ∀ s : State, ∃ t, step s = .next t

/-- The decoder of R74, case by case on the header word. -/
def Obligations.DecoderFollowsItsTable : Prop :=
  ∀ (cmd : List Word) (cp : Nat),
    (cmd[cp]? = none → decode cmd cp = .needWord) ∧
    (∀ w, cmd[cp]? = some w →
      (w = 0x01000000#32 → decode cmd cp = .command .init (cp + 1)) ∧
      (w = 0x03000000#32 → decode cmd cp = .command .final (cp + 1)) ∧
      (w.extractLsb' 24 8 = 0x02#8 →
        (cmd.length < cp + 1 + ((w.extractLsb' 0 24).toNat + 31) / 32 → decode cmd cp = .needWord) ∧
        (cp + 1 + ((w.extractLsb' 0 24).toNat + 31) / 32 ≤ cmd.length →
          ∃ bits, decode cmd cp = .command (.add bits) (cp + 1 + ((w.extractLsb' 0 24).toNat + 31) / 32) ∧
            bits.length = (w.extractLsb' 0 24).toNat ∧
            ∀ p, p < bits.length →
              ∃ v, cmd[cp + 1 + p / 32]? = some v ∧ bits[p]? = some (v.getLsbD (31 - p % 32)))) ∧
      (IllegalHeader w → decode cmd cp = .illegal w))

/-- Pad bits are ignored: when LEN is not a multiple of 32 the low bits of the last payload word may have any value. The
decoder's outcome and the step's are the same for all of them, the next states differing in that word of CMD alone, and none
of them makes the ADD fault (R68). -/
def Obligations.PadBitsAreIgnored : Prop :=
  ∀ (s : State) (r : Nat) (w v v' : Word), s.cmd[s.cp]? = some w → w.extractLsb' 24 8 = 0x02#8 →
    r = (w.extractLsb' 0 24).toNat % 32 → r ≠ 0 → s.cmd[s.cp + ((w.extractLsb' 0 24).toNat + 31) / 32]? = some v →
    v >>> (32 - r) = v' >>> (32 - r) →
    decode (s.cmd.set (s.cp + ((w.extractLsb' 0 24).toNat + 31) / 32) v') s.cp = decode s.cmd s.cp ∧
    ∃ t, step s = .next t ∧
      step { s with cmd := s.cmd.set (s.cp + ((w.extractLsb' 0 24).toNat + 31) / 32) v' } =
        .next { t with cmd := s.cmd.set (s.cp + ((w.extractLsb' 0 24).toNat + 31) / 32) v' } ∧
      (s.rst = false → s.fcode = 0#2 → BufferOk s → s.totLen.toNat + (w.extractLsb' 0 24).toNat < 2 ^ 64 → t.fcode = 0#2)

/-- The length of a command is a function of its header alone; after a command that does not fault cp has moved by it, and
one that faults has consumed its header and nothing else (R73). -/
def Obligations.CommandLengthFromHeader : Prop :=
  ∀ (s : State) (w : Word), s.rst = false → s.fcode = 0#2 → s.cmd[s.cp]? = some w →
    (∀ i n, decode s.cmd s.cp = .command i n →
      n = s.cp + (if w.extractLsb' 24 8 = 0x02#8 then 1 + ((w.extractLsb' 0 24).toNat + 31) / 32 else 1) ∧
      ∃ t, step s = .next t ∧ (t.fcode = 0#2 → t.cp = n)) ∧
    (∀ t, step s = .next t → t.fcode ≠ 0#2 → t.cp = s.cp + 1)

/-- Decode and encode agree: the words of a well-formed command, wherever they stand in the stream, decode to it, every LEN
and every message bit included. -/
def Obligations.DecodeOfEncode : Prop :=
  ∀ (i : Instr) (before after : List Word), i.wf = true →
    decode (before ++ encode i ++ after) before.length = .command i (before.length + (encode i).length)

/-- What the decoder reads is well formed, and its encoding has the header word and the length of the words read. -/
def Obligations.EncodeOfDecoded : Prop :=
  ∀ (cmd : List Word) (cp n : Nat) (i : Instr), decode cmd cp = .command i n →
    i.wf = true ∧ n = cp + (encode i).length ∧ n ≤ cmd.length ∧ (encode i)[0]? = cmd[cp]?

/-- Sample words, written out from the encodings of R63, R64, R67, R69 and R71, decode to what they stand for. -/
def Obligations.SampleWordsDecode : Prop :=
  decode [0x01000000#32] 0 = .command .init 1 ∧
  decode [0x03000000#32] 0 = .command .final 1 ∧
  decode [0x02000000#32] 0 = .command (.add []) 1 ∧
  decode [0x02000003#32, 0x7FFFFFFF#32] 0 = .command (.add [false, true, true]) 2 ∧
  decode [0x02000021#32, 0xDEADBEEF#32] 0 = .needWord ∧
  decode [0x00000000#32] 0 = .illegal 0x00000000#32 ∧
  decode [0x03800000#32] 0 = .illegal 0x03800000#32

/-- A word supplied later changes nothing of a step that is not waiting for it (20_memory.md section 5). -/
def Obligations.LaterWordsDoNotChangeAStep : Prop :=
  ∀ (s t : State) (more : List Word), held s = false → step s = .next t →
    step (supply more s) = .next (supply more t)

/-- The streams: CMD is never written by CORE, cp only grows, and RSP is only appended to, five words at a time or none
(20_memory.md section 1). -/
def Obligations.StreamsOnlyMoveForward : Prop :=
  ∀ s t : State, step s = .next t →
    t.cmd = s.cmd ∧ s.cp ≤ t.cp ∧ ∃ ws, t.rsp = s.rsp ++ ws ∧ (ws = [] ∨ ws.length = 5)

/-! The compression core. -/

/-- `rotl`: bit k of the result is bit (k - n) mod 32 of x, for every amount (R80). -/
def Obligations.RotlMovesEveryBit : Prop :=
  ∀ (x : Word) (n k : Nat), k < 32 → (rotl x n).getLsbD k = x.getLsbD ((k + (32 - n % 32)) % 32)

/-- Ch selects, Parity adds modulo 2 and Maj takes the majority, bit by bit (41_compression_core.md section 1). -/
def Obligations.RoundFunctionsBitByBit : Prop :=
  ∀ (b c d : Word) (k : Nat), k < 32 →
    (ch b c d).getLsbD k = (if b.getLsbD k then c.getLsbD k else d.getLsbD k) ∧
    (parity b c d).getLsbD k = decide (((b.getLsbD k).toNat + (c.getLsbD k).toNat + (d.getLsbD k).toNat) % 2 = 1) ∧
    (maj b c d).getLsbD k = decide (2 ≤ (b.getLsbD k).toNat + (c.getLsbD k).toNat + (d.getLsbD k).toNat)

/-- The stage table: function and constant of every round by range (R84). -/
def Obligations.StageTable : Prop :=
  ∀ (i : Nat) (b c d : Word),
    (i < 20 → roundF i b c d = ch b c d ∧ roundK i = 0x5A827999#32) ∧
    (20 ≤ i → i < 40 → roundF i b c d = parity b c d ∧ roundK i = 0x6ED9EBA1#32) ∧
    (40 ≤ i → i < 60 → roundF i b c d = maj b c d ∧ roundK i = 0x8F1BBCDC#32) ∧
    (60 ≤ i → i < 80 → roundF i b c d = parity b c d ∧ roundK i = 0xCA62C1D6#32)

/-- The schedule: 80 words, the first 16 the block's, each later one from the four before it (R86, R87). -/
def Obligations.ScheduleRecurrence : Prop :=
  ∀ m : List Word, m.length = 16 →
    (schedule m).length = 80 ∧
    (∀ t, t < 16 → (schedule m)[t]? = m[t]?) ∧
    (∀ t, 16 ≤ t → t < 80 → ∃ w₃ w₈ w₁₄ w₁₆ : Word, (schedule m)[t - 3]? = some w₃ ∧ (schedule m)[t - 8]? = some w₈ ∧
      (schedule m)[t - 14]? = some w₁₄ ∧ (schedule m)[t - 16]? = some w₁₆ ∧
      (schedule m)[t]? = some (rotl (w₃ ^^^ w₈ ^^^ w₁₄ ^^^ w₁₆) 1))

/-- COMPRESS: 80 rounds in order from the input state, each with its own schedule word, then the chaining sum (R92). -/
def Obligations.CompressIsEightyRounds : Prop :=
  ∀ (s : Chain) (m : List Word), m.length = 16 →
    ∃ v : Nat → Working,
      v 0 = { a := s.h0, b := s.h1, c := s.h2, d := s.h3, e := s.h4 } ∧
      (∀ i, i < 80 → ∃ w, (schedule m)[i]? = some w ∧
        v (i + 1) = { a := (v i).e + rotl (v i).a 5 + roundF i (v i).b (v i).c (v i).d + w + roundK i
                      b := (v i).a
                      c := rotl (v i).b 30
                      d := (v i).c
                      e := (v i).d }) ∧
      compress s m = { h0 := s.h0 + (v 80).a, h1 := s.h1 + (v 80).b, h2 := s.h2 + (v 80).c, h3 := s.h3 + (v 80).d,
                       h4 := s.h4 + (v 80).e }

/-- Keeping only the last 16 schedule words, each computed in its own round, computes the same function (R94, which the spec
marks as derived). -/
def Obligations.RollingWindowComputesCompress : Prop :=
  ∀ (s : Chain) (m : List Word), m.length = 16 → compressRolling s m = compress s m

/-! Bit order and word order. -/

/-- `words(B)`: 16 words, bit 31 - k of word j being bit 32 j + k of the block (R44, the packing the spec supplies
from general knowledge by its decision D24). -/
def Obligations.BlockWordsBitOrder : Prop :=
  ∀ b : Bits, b.length = 512 →
    (words b).length = 16 ∧
    ∀ j k, j < 16 → k < 32 → ∃ w, (words b)[j]? = some w ∧ b[32 * j + k]? = some (w.getLsbD (31 - k))

/-- `be64(T)` is T most significant bit first, and at the end of a block it becomes M[14] = T[63:32], M[15] = T[31:0]
(R45, whose second sentence the spec marks as derived). -/
def Obligations.LengthFieldWords : Prop :=
  ∀ (t : BitVec 64) (b : Bits), b.length = 448 →
    (be64 t).length = 64 ∧ (∀ p, p < 64 → (be64 t)[p]? = some (t.getLsbD (63 - p))) ∧
    (words (b ++ be64 t))[14]? = some (t.extractLsb' 32 32) ∧ (words (b ++ be64 t))[15]? = some (t.extractLsb' 0 32)

/-- The digest value has H[0] in bits 159:128 and H[4] in bits 31:0, and is emitted H[0] first (R46). -/
def Obligations.DigestWordOrder : Prop :=
  ∀ c : Chain,
    (chainValue c).extractLsb' 128 32 = c.h0 ∧ (chainValue c).extractLsb' 96 32 = c.h1 ∧
    (chainValue c).extractLsb' 64 32 = c.h2 ∧ (chainValue c).extractLsb' 32 32 = c.h3 ∧
    (chainValue c).extractLsb' 0 32 = c.h4 ∧ chainWords c = [c.h0, c.h1, c.h2, c.h3, c.h4]

/-- The packed register: if BUFREG holds a full block, word j of the block is BUFREG[511 - 32 j : 480 - 32 j]
(10_state.md section 3). -/
def Obligations.PackedBlockWords : Prop :=
  ∀ (reg : BitVec 512) (b : Bits), b.length = 512 → PackedForm reg b →
    ∀ j, j < 16 → (words b)[j]? = some (reg.extractLsb' (480 - 32 * j) 32)

/-- Bytes to bits, and four message bytes packed into one payload word in reading order (R43). -/
def Obligations.BytesPackInReadingOrder : Prop :=
  (∀ (m : List (BitVec 8)) (j k : Nat), k < 8 → (bitsOfBytes m)[8 * j + k]? = m[j]?.map fun b => b.getLsbD (7 - k)) ∧
  (∀ (b₀ b₁ b₂ b₃ : BitVec 8),
    packWords (bitsOfBytes [b₀, b₁, b₂, b₃]) = [b₀ ++ b₁ ++ b₂ ++ b₃] ∧
    messageBits 32 [b₀ ++ b₁ ++ b₂ ++ b₃] = bitsOfBytes [b₀, b₁, b₂, b₃])
end

