-- ==== Sys2Proof/Laws/Bits.lean ====
section
/-! SUPPORT. Bits and words: the bit of a word made of bits, the bits of a word, lengths, and the padding. -/

namespace Sys2Proof.Machine

theorem bitsNat_append (bs : Bits) (b : Bool) : bitsNat (bs ++ [b]) = 2 * bitsNat bs + b.toNat := by
  simp [bitsNat, List.foldl_append]

/-- Bit k of the number is the k-th bit from the end of the sequence. -/
theorem testBit_bitsNat (bs : Bits) (k : Nat) : (bitsNat bs).testBit k = (bs.reverse[k]?).getD false := by
  induction bs using List.reverseRecOn generalizing k with
  | nil => simp [bitsNat]
  | append_singleton bs b ih =>
    rw [bitsNat_append]
    cases k with
    | zero => cases b <;> simp
    | succ k =>
      rw [Nat.testBit_succ]
      have : (2 * bitsNat bs + b.toNat) / 2 = bitsNat bs := by cases b <;> (simp; try omega)
      rw [this, ih]
      simp

theorem getLsbD_wordOfBits (bs : Bits) (k : Nat) (h : bs.length = 32) (hk : k < 32) :
    bs[k]? = some ((wordOfBits bs).getLsbD (31 - k)) := by
  have hrev : bs.reverse[31 - k]? = bs[k]? := by
    rw [List.getElem?_reverse (by omega)]
    congr 1
    omega
  rw [wordOfBits, BitVec.getLsbD_ofNat, testBit_bitsNat, hrev, List.getElem?_eq_getElem (by omega)]
  simp
  omega

/-- Bit 31 - k of word j is bit 32 j + k of the sequence, where the sequence reaches that far. -/
theorem getElem?_wordAt (bs : Bits) (j k : Nat) (h : 32 * j + 32 ≤ bs.length) (hk : k < 32) :
    bs[32 * j + k]? = some ((wordAt bs j).getLsbD (31 - k)) := by
  have := getLsbD_wordOfBits ((bs.drop (32 * j)).take 32) k (by simp; omega) hk
  rw [List.getElem?_take, if_pos hk, List.getElem?_drop] at this
  exact this

@[simp] theorem words_length (b : Bits) : (words b).length = 16 := by
  simp [words]

theorem words_getElem? (b : Bits) (j : Nat) (hj : j < 16) : (words b)[j]? = some (wordAt b j) := by
  simp [words, hj]

@[simp] theorem wordBits_length (w : Word) : (wordBits w).length = 32 := by
  simp [wordBits]

theorem wordBits_getElem? (w : Word) (k : Nat) (hk : k < 32) : (wordBits w)[k]? = some (w.getLsbD (31 - k)) := by
  simp [wordBits, hk]

/-- A word is determined by its bits in message order. -/
theorem word_ext (v w : Word) (h : ∀ k, k < 32 → v.getLsbD (31 - k) = w.getLsbD (31 - k)) : v = w := by
  apply BitVec.eq_of_getLsbD_eq
  intro i hi
  have := h (31 - i) (by omega)
  rwa [show 31 - (31 - i) = i by omega] at this

@[simp] theorem flatMap_wordBits_length (ps : List Word) : (ps.flatMap wordBits).length = 32 * ps.length := by
  induction ps with
  | nil => rfl
  | cons p ps ih => simp [List.flatMap_cons, ih]; omega

/-- Bit p of the payload is bit 31 - (p mod 32) of word p / 32. -/
theorem flatMap_wordBits_getElem? (ps : List Word) (p : Nat) :
    (ps.flatMap wordBits)[p]? = (ps[p / 32]?).map fun w => w.getLsbD (31 - p % 32) := by
  induction ps generalizing p with
  | nil => simp
  | cons w ps ih =>
    rw [List.flatMap_cons]
    by_cases hp : p < 32
    · rw [List.getElem?_append_left (by simpa using hp), wordBits_getElem? w p hp]
      simp [Nat.div_eq_of_lt hp, Nat.mod_eq_of_lt hp]
    · rw [List.getElem?_append_right (by simp; omega), wordBits_length, ih]
      have h1 : p / 32 = (p - 32) / 32 + 1 := by omega
      have h2 : (p - 32) % 32 = p % 32 := by omega
      rw [h1, h2, List.getElem?_cons_succ]

theorem messageBits_length (len : Nat) (ps : List Word) (h : payloadWords len ≤ ps.length) :
    (messageBits len ps).length = len := by
  rw [messageBits, List.length_take, flatMap_wordBits_length]
  unfold payloadWords at h
  omega

theorem messageBits_getElem? (len : Nat) (ps : List Word) (p : Nat) (hp : p < len) :
    (messageBits len ps)[p]? = (ps[p / 32]?).map fun w => w.getLsbD (31 - p % 32) := by
  rw [messageBits, List.getElem?_take, if_pos hp, flatMap_wordBits_getElem?]

@[simp] theorem packWords_length (bits : Bits) : (packWords bits).length = payloadWords bits.length := by
  simp [packWords]

/-- What is packed is unpacked: the payload words of a bit sequence carry it. -/
theorem messageBits_packWords (bits : Bits) : messageBits bits.length (packWords bits) = bits := by
  apply List.ext_getElem?
  intro p
  by_cases hp : p < bits.length
  · rw [messageBits_getElem? _ _ _ hp]
    have hj : p / 32 < payloadWords bits.length := by unfold payloadWords; omega
    have hw := getElem?_wordAt (bits ++ List.replicate 31 false) (p / 32) (p % 32)
      (by simp; unfold payloadWords at hj; omega) (by omega)
    rw [show 32 * (p / 32) + p % 32 = p by omega, List.getElem?_append_left hp] at hw
    simp [packWords, hj, hw]
  · rw [List.getElem?_eq_none (by rw [messageBits_length _ _ (by simp)]; omega), List.getElem?_eq_none (by omega)]

@[simp] theorem be64_length (t : BitVec 64) : (be64 t).length = 64 := by
  simp [be64]

theorem be64_getElem? (t : BitVec 64) (p : Nat) (hp : p < 64) : (be64 t)[p]? = some (t.getLsbD (63 - p)) := by
  simp [be64, hp]

theorem padZeros_of_le (l : Nat) (h : l ≤ 447) : padZeros l = 447 - l := by
  unfold padZeros; omega

theorem padZeros_of_ge (l : Nat) (h : 448 ≤ l) (h' : l < 512) : padZeros l = 959 - l := by
  unfold padZeros; omega

/-- The zeros bring the length to 448 modulo 512, whatever it was. -/
theorem padZeros_spec (l : Nat) : (l + 1 + padZeros l) % 512 = 448 ∧ padZeros l < 512 := by
  unfold padZeros; omega

theorem pad_length (b : Bits) (t : BitVec 64) : (pad b t).length = b.length + 1 + padZeros b.length + 64 := by
  simp [pad]; omega

/-- A padded buffer is a whole number of blocks, one or more, in every state. -/
theorem pad_length_mod (b : Bits) (t : BitVec 64) : (pad b t).length % 512 = 0 ∧ 512 ≤ (pad b t).length := by
  have := padZeros_spec b.length
  rw [pad_length]
  omega

end Sys2Proof.Machine
end

