-- ==== Sys2Proof/Laws/Blocks.lean ====
section
/-! SUPPORT. Blocks: how the whole slices of a sequence are taken apart, and what the loop of ADD and the two compressions of
FINAL come to. -/

namespace Sys2Proof.Machine

open Safety

theorem compressBlock_of_length (c : Chain) (b : Bits) (h : b.length = 512) :
    compressBlock c b = some (compress c (words b)) := by
  simp [compressBlock, h]

theorem wholeBlocks_of_lt (m : Bits) (h : m.length < 512) : wholeBlocks m = [] := by
  simp [wholeBlocks, Nat.div_eq_of_lt h]

theorem wholeBlocks_of_ge (m : Bits) (h : 512 ≤ m.length) :
    wholeBlocks m = m.take 512 :: wholeBlocks (m.drop 512) := by
  have hd : m.length / 512 = (m.length - 512) / 512 + 1 := by omega
  rw [wholeBlocks, wholeBlocks, List.length_drop, hd, List.range_succ_eq_map]
  simp only [List.map_cons, List.map_map, Nat.mul_zero, List.drop_zero, List.drop_drop]
  congr 1
  apply List.map_congr_left
  intro j _
  simp only [Function.comp, Nat.succ_eq_add_one]
  congr 2
  omega

@[simp] theorem wholeBlocks_length (m : Bits) : (wholeBlocks m).length = m.length / 512 := by
  simp [wholeBlocks]

theorem remainder_of_lt (m : Bits) (h : m.length < 512) : remainder m = m := by
  simp [remainder, Nat.div_eq_of_lt h]

theorem remainder_of_ge (m : Bits) (h : 512 ≤ m.length) : remainder m = remainder (m.drop 512) := by
  have hd : m.length / 512 = (m.length - 512) / 512 + 1 := by omega
  rw [remainder, remainder, List.length_drop, List.drop_drop, hd]
  congr 1
  omega

theorem remainder_length (m : Bits) : (remainder m).length = m.length % 512 := by
  simp [remainder]
  omega

theorem chainOver_of_lt (c : Chain) (m : Bits) (h : m.length < 512) : chainOver c m = c := by
  simp [chainOver, wholeBlocks_of_lt m h]

theorem chainOver_of_ge (c : Chain) (m : Bits) (h : 512 ≤ m.length) :
    chainOver c m = chainOver (compress c (words (m.take 512))) (m.drop 512) := by
  simp [chainOver, wholeBlocks_of_ge m h]

/-- A whole block in front: it is compressed first. -/
theorem chainOver_block_append (c : Chain) (b m : Bits) (h : b.length = 512) :
    chainOver c (b ++ m) = chainOver (compress c (words b)) m := by
  rw [chainOver_of_ge _ _ (by simp; omega), List.take_left' h, List.drop_left' h]

theorem remainder_block_append (b m : Bits) (h : b.length = 512) : remainder (b ++ m) = remainder m := by
  rw [remainder_of_ge _ (by simp; omega), List.drop_left' h]

/-- The slices of a joined sequence: those of the first part, then those of its remainder with the second part. -/
theorem chainOver_remainder_append (a b : Bits) (c : Chain) :
    chainOver c (a ++ b) = chainOver (chainOver c a) (remainder a ++ b) ∧
      remainder (a ++ b) = remainder (remainder a ++ b) := by
  induction hn : a.length / 512 generalizing a c with
  | zero =>
    have h : a.length < 512 := by omega
    simp [chainOver_of_lt c a h, remainder_of_lt a h]
  | succ n ih =>
    have h : 512 ≤ a.length := by omega
    have hsplit : a ++ b = a.take 512 ++ (a.drop 512 ++ b) := by
      rw [← List.append_assoc, List.take_append_drop]
    have hlen : (a.take 512).length = 512 := by simp; omega
    have := ih (a.drop 512) (compress c (words (a.take 512))) (by simp; omega)
    rw [hsplit, chainOver_block_append _ _ _ hlen, remainder_block_append _ _ hlen, chainOver_of_ge c a h,
      remainder_of_ge a h]
    exact this

/-- The loop of R105 with enough fuel compresses every whole block and leaves what is shorter. -/
theorem absorb_spec (fuel : Nat) (c : Chain) (rest : Bits) (h : rest.length / 512 ≤ fuel) :
    absorb fuel c rest = some (chainOver c rest, remainder rest) := by
  induction fuel generalizing c rest with
  | zero =>
    have h' : rest.length < 512 := by omega
    simp [absorb, chainOver_of_lt c rest h', remainder_of_lt rest h']
  | succ fuel ih =>
    rw [absorb]
    split
    · rename_i h'
      simp [chainOver_of_lt c rest h', remainder_of_lt rest h']
    · rename_i h'
      have h'' : 512 ≤ rest.length := by omega
      rw [compressBlock_of_length _ _ (by simp; omega)]
      rw [chainOver_of_ge c rest h'', remainder_of_ge rest h'']
      exact ih _ _ (by simp; omega)

theorem firstBlock_length (s : State) (bits : Bits) (h : BufferOk s) (hk : 512 ≤ s.bufLen.toNat + bits.length) :
    (firstBlock s bits).length = 512 := by
  have := h.len_eq
  have := h.len_lt
  simp [firstBlock, fillBits]
  omega

theorem firstBlock_append_afterFill (s : State) (bits : Bits) :
    firstBlock s bits ++ afterFill s bits = s.buf ++ bits := by
  simp [firstBlock, afterFill]

/-- The block path of ADD, in terms of its own fill: compress the first block, then the whole blocks of the rest. -/
theorem addBlocks_fill (s : State) (bits : Bits) (h : BufferOk s) (hk : 512 ≤ s.bufLen.toNat + bits.length) :
    addBlocks s bits =
      some (chainOver (compress s.h (words (firstBlock s bits))) (afterFill s bits), remainder (afterFill s bits)) := by
  rw [addBlocks, compressBlock_of_length _ _ (firstBlock_length s bits h hk)]
  exact absorb_spec _ _ _ (Nat.le_refl _)

/-- The block path of ADD compresses the whole slices of BUF ++ bits and keeps the remainder (R107). -/
theorem addBlocks_spec (s : State) (bits : Bits) (h : BufferOk s) (hk : 512 ≤ s.bufLen.toNat + bits.length) :
    addBlocks s bits = some (chainOver s.h (s.buf ++ bits), remainder (s.buf ++ bits)) := by
  have hlen := firstBlock_length s bits h hk
  rw [addBlocks_fill s bits h hk, ← firstBlock_append_afterFill s bits, chainOver_block_append _ _ _ hlen,
    remainder_block_append _ _ hlen]

/-- FINAL always has its one or two blocks, in every state (R109, R110). -/
theorem finalChain_isSome (s : State) : (finalChain s).isSome = true := by
  have := pad_length_mod s.buf s.totLen
  rw [finalChain]
  rw [compressBlock_of_length _ _ (by simp; omega)]
  simp only
  split
  · rw [compressBlock_of_length _ _ (by simp; omega)]
    rfl
  · rfl

/-- The running state whose words a FINAL emits: the compressions of the padded buffer's blocks. -/
theorem finalChain_spec (s : State) (h : s.buf.length < 512) :
    finalChain s = some (chainOver s.h (pad s.buf s.totLen)) := by
  have hm := pad_length_mod s.buf s.totLen
  have hle : (pad s.buf s.totLen).length ≤ 1024 := by
    rw [pad_length]
    rcases Nat.lt_or_ge s.buf.length 448 with h' | h'
    · rw [padZeros_of_le _ (by omega)]; omega
    · rw [padZeros_of_ge _ h' h]; omega
  rw [finalChain]
  rw [compressBlock_of_length _ _ (by simp; omega), chainOver_of_ge _ _ hm.2]
  simp only
  split
  · rename_i h2
    have hd : ((pad s.buf s.totLen).drop 512).length = 512 := by simp; omega
    rw [List.take_of_length_le (Nat.le_of_eq hd), compressBlock_of_length _ _ hd, chainOver_of_ge _ _ (by omega),
      List.take_of_length_le (Nat.le_of_eq hd), chainOver_of_lt _ _ (by simp; omega)]
  · rw [chainOver_of_lt _ _ (by simp; omega)]

end Sys2Proof.Machine
end

