-- ==== Sys2Proof/Laws/Compression.lean ====
section
/-! SUPPORT. The schedule and the rounds: lengths, prefixes, and how a run of rounds is cut in two. -/

namespace Sys2Proof.Machine

@[simp] theorem extendSchedule_length (n : Nat) (w : List Word) : (extendSchedule n w).length = w.length + n := by
  induction n generalizing w with
  | zero => rfl
  | succ n ih => rw [extendSchedule, ih]; simp; omega

/-- Extending a schedule leaves the words it has. -/
theorem extendSchedule_getElem?_old (n : Nat) (w : List Word) (t : Nat) (ht : t < w.length) :
    (extendSchedule n w)[t]? = w[t]? := by
  induction n generalizing w with
  | zero => rfl
  | succ n ih => rw [extendSchedule, ih _ (by simp; omega), List.getElem?_append_left ht]

theorem extendSchedule_take (n : Nat) (w : List Word) : (extendSchedule n w).take w.length = w := by
  apply List.ext_getElem?
  intro i
  by_cases hi : i < w.length
  · rw [List.getElem?_take, if_pos hi, extendSchedule_getElem?_old _ _ _ hi]
  · rw [List.getElem?_eq_none (by rw [List.length_take]; omega), List.getElem?_eq_none (by omega)]

/-- Each new word is the schedule word of the words before it. -/
theorem extendSchedule_getElem?_new (n : Nat) (w : List Word) (t : Nat) (h : w.length ≤ t) (h' : t < w.length + n) :
    (extendSchedule n w)[t]? = some (scheduleWord ((extendSchedule n w).take t)) := by
  induction n generalizing w with
  | zero => omega
  | succ n ih =>
    rw [extendSchedule]
    by_cases he : t = w.length
    · subst he
      have hp : (extendSchedule n (w ++ [scheduleWord w])).take w.length = w := by
        have := congrArg (List.take w.length) (extendSchedule_take n (w ++ [scheduleWord w]))
        simpa [List.take_take] using this
      rw [extendSchedule_getElem?_old _ _ _ (by simp), hp]
      simp
    · exact ih _ (by simp; omega) (by simp; omega)

/-- The rounds over a joined list of schedule words: the first part, then the second from the index it starts at. -/
theorem rounds_append (a b : List Word) (i : Nat) (v : Working) :
    rounds i (a ++ b) v = rounds (i + a.length) b (rounds i a v) := by
  induction a generalizing i v with
  | nil => rfl
  | cons x xs ih =>
    simp only [List.cons_append, rounds, ih, List.length_cons]
    congr 1
    omega

end Sys2Proof.Machine
end

