-- ==== Sys2Proof/Laws/Decode.lean ====
section
/-! SUPPORT. The decoder: the fields of a header word, and what each outcome of `decode` means. -/

namespace Sys2Proof

open Machine

/-- A header word is its two fields. -/
theorem header_eq_fields (w : Word) : w = opField w ++ lenField w := by
  apply BitVec.eq_of_getLsbD_eq
  intro i hi
  simp only [opField, lenField, BitVec.getLsbD_append, BitVec.getLsbD_extractLsb']
  by_cases h : i < 24
  · simp [h]
  · simp [h, show 24 + (i - 24) = i by omega, show i - 24 < 8 by omega]

theorem opField_append (op : BitVec 8) (len : BitVec 24) : opField (op ++ len) = op := by
  apply BitVec.eq_of_getLsbD_eq
  intro i hi
  rw [opField, BitVec.getLsbD_extractLsb', BitVec.getLsbD_append]
  simp [hi]

theorem lenField_append (op : BitVec 8) (len : BitVec 24) : lenField (op ++ len) = len := by
  apply BitVec.eq_of_getLsbD_eq
  intro i hi
  rw [lenField, BitVec.getLsbD_extractLsb', BitVec.getLsbD_append]
  simp [hi]

theorem isAddHeader_iff (w : Word) : isAddHeader w = true ↔ w.extractLsb' 24 8 = 0x02#8 := by
  simp [isAddHeader, opField]

/-- A word with those two fields is that header. -/
theorem header_of_fields (w : Word) (op : BitVec 8) (len : BitVec 24) (h : w.extractLsb' 24 8 = op)
    (h' : w.extractLsb' 0 24 = len) : w = op ++ len := by
  rw [header_eq_fields w, opField, lenField, h, h']

theorem drop_of_getElem? (cmd : List Word) (cp : Nat) (w : Word) (h : cmd[cp]? = some w) :
    cmd.drop cp = w :: cmd.drop (cp + 1) := by
  obtain ⟨hlt, rfl⟩ := List.getElem?_eq_some_iff.mp h
  exact List.drop_eq_getElem_cons hlt

theorem decode_none (cmd : List Word) (cp : Nat) (h : cmd[cp]? = none) : decode cmd cp = .needWord := by
  have : cmd.drop cp = [] := List.drop_eq_nil_of_le (List.getElem?_eq_none_iff.mp h)
  simp [decode, this]

/-- The decoder looks at the header word first. -/
theorem decode_header (cmd : List Word) (cp : Nat) (w : Word) (h : cmd[cp]? = some w) :
    decode cmd cp =
      if w = 0x01000000#32 then .command .init (cp + 1)
      else if w = 0x03000000#32 then .command .final (cp + 1)
      else if isAddHeader w then decodeAdd (lenField w).toNat (cmd.drop (cp + 1)) cp
      else .illegal w := by
  simp [decode, drop_of_getElem? cmd cp w h]

theorem not_init_of_addHeader (w : Word) (h : isAddHeader w = true) : w ≠ 0x01000000#32 ∧ w ≠ 0x03000000#32 := by
  constructor <;> rintro rfl <;> exact absurd h (by decide)

theorem decode_addHeader (cmd : List Word) (cp : Nat) (w : Word) (h : cmd[cp]? = some w) (hw : isAddHeader w = true) :
    decode cmd cp = decodeAdd (lenField w).toNat (cmd.drop (cp + 1)) cp := by
  have := not_init_of_addHeader w hw
  simp [decode_header cmd cp w h, this, hw]

/-- What it means that the decoder read a command: the header it found, and the words that were there. -/
theorem decode_command_cases {cmd : List Word} {cp n : Nat} {i : Instr} (h : decode cmd cp = .command i n) :
    (i = .init ∧ cmd[cp]? = some 0x01000000#32 ∧ n = cp + 1) ∨
    (i = .final ∧ cmd[cp]? = some 0x03000000#32 ∧ n = cp + 1) ∨
    (∃ w, cmd[cp]? = some w ∧ isAddHeader w = true ∧ n = cp + 1 + payloadWords (lenField w).toNat ∧ n ≤ cmd.length ∧
      i = .add (messageBits (lenField w).toNat ((cmd.drop (cp + 1)).take (payloadWords (lenField w).toNat)))) := by
  cases hc : cmd[cp]? with
  | none => rw [decode_none cmd cp hc] at h; cases h
  | some w =>
    have hlt := (List.getElem?_eq_some_iff.mp hc).1
    rw [decode_header cmd cp w hc] at h
    split at h
    · rename_i hw; cases h; exact .inl ⟨rfl, by rw [hw], rfl⟩
    · split at h
      · rename_i hw; cases h; exact .inr (.inl ⟨rfl, by rw [hw], rfl⟩)
      · split at h
        · rename_i hw
          rw [decodeAdd] at h
          split at h
          · cases h
          · rename_i hlen
            cases h
            simp only [List.length_drop] at hlen
            exact .inr (.inr ⟨w, rfl, hw, rfl, by omega, rfl⟩)
        · cases h

/-- What it means that the decoder wants more words. -/
theorem decode_needWord_cases {cmd : List Word} {cp : Nat} (h : decode cmd cp = .needWord) :
    cmd[cp]? = none ∨
    (∃ w, cmd[cp]? = some w ∧ isAddHeader w = true ∧ cmd.length < cp + 1 + payloadWords (lenField w).toNat) := by
  cases hc : cmd[cp]? with
  | none => exact .inl rfl
  | some w =>
    have hlt := (List.getElem?_eq_some_iff.mp hc).1
    rw [decode_header cmd cp w hc] at h
    split at h
    · cases h
    · split at h
      · cases h
      · split at h
        · rename_i hw
          rw [decodeAdd] at h
          split at h
          · rename_i hlen
            simp only [List.length_drop] at hlen
            exact .inr ⟨w, rfl, hw, by omega⟩
          · cases h
        · cases h

/-- What it means that the decoder rejects a word. -/
theorem decode_illegal_cases {cmd : List Word} {cp : Nat} {w : Word} (h : decode cmd cp = .illegal w) :
    cmd[cp]? = some w ∧ w ≠ 0x01000000#32 ∧ w ≠ 0x03000000#32 ∧ isAddHeader w = false := by
  cases hc : cmd[cp]? with
  | none => rw [decode_none cmd cp hc] at h; cases h
  | some v =>
    rw [decode_header cmd cp v hc] at h
    split at h
    · cases h
    · split at h
      · cases h
      · split at h
        · rw [decodeAdd] at h
          split at h <;> cases h
        · rename_i h1 h2 h3
          cases h
          exact ⟨rfl, h1, h2, by simpa using h3⟩

end Sys2Proof
end

