-- ==== Sys2Proof/Laws/PerInstr.lean ====
section
/-! SUPPORT. Facts about every command as syntax, one lemma per constructor. -/

namespace Sys2Proof.Laws.EncodedLength

open Sys2Proof Machine

/-- The encoding of a well-formed command has the length its own header asks for (R73). -/
def Statement (i : Instr) : Prop :=
  i.wf = true → ∃ w ws, encode i = w :: ws ∧ (encode i).length = headerWords w

theorem init : Statement .init := by
  intro _
  exact ⟨_, [], rfl, by decide⟩

theorem add (bits : Bits) : Statement (.add bits) := by
  intro h
  simp only [Instr.wf, decide_eq_true_eq] at h
  refine ⟨_, _, rfl, ?_⟩
  have hl : (BitVec.ofNat 24 bits.length).toNat = bits.length := by simp; omega
  simp [encode, headerWords, isAddHeader, opField_append, lenField_append, hl]
  omega

theorem final : Statement .final := by
  intro _
  exact ⟨_, [], rfl, by decide⟩

end Sys2Proof.Laws.EncodedLength
end

