-- ==== Sys2Proof/Laws/State.lean ====
section
/-! SUPPORT. What each named update leaves in each field of the state: one lemma per field per update. -/

namespace Sys2Proof.Machine

@[simp] theorem raiseFault_h (code : BitVec 2) (s : State) :
    (raiseFault code s).h = s.h := rfl
@[simp] theorem raiseFault_buf (code : BitVec 2) (s : State) :
    (raiseFault code s).buf = s.buf := rfl
@[simp] theorem raiseFault_bufLen (code : BitVec 2) (s : State) :
    (raiseFault code s).bufLen = s.bufLen := rfl
@[simp] theorem raiseFault_totLen (code : BitVec 2) (s : State) :
    (raiseFault code s).totLen = s.totLen := rfl
@[simp] theorem raiseFault_fcode (code : BitVec 2) (s : State) :
    (raiseFault code s).fcode = code := rfl
@[simp] theorem raiseFault_cmd (code : BitVec 2) (s : State) :
    (raiseFault code s).cmd = s.cmd := rfl
@[simp] theorem raiseFault_cp (code : BitVec 2) (s : State) :
    (raiseFault code s).cp = s.cp + 1 := rfl
@[simp] theorem raiseFault_rsp (code : BitVec 2) (s : State) :
    (raiseFault code s).rsp = s.rsp := rfl
@[simp] theorem raiseFault_rst (code : BitVec 2) (s : State) :
    (raiseFault code s).rst = s.rst := rfl

@[simp] theorem construct_h (s : State) :
    (construct s).h = iv := rfl
@[simp] theorem construct_buf (s : State) :
    (construct s).buf = [] := rfl
@[simp] theorem construct_bufLen (s : State) :
    (construct s).bufLen = 0#10 := rfl
@[simp] theorem construct_totLen (s : State) :
    (construct s).totLen = 0#64 := rfl
@[simp] theorem construct_fcode (s : State) :
    (construct s).fcode = s.fcode := rfl
@[simp] theorem construct_cmd (s : State) :
    (construct s).cmd = s.cmd := rfl
@[simp] theorem construct_cp (s : State) :
    (construct s).cp = s.cp := rfl
@[simp] theorem construct_rsp (s : State) :
    (construct s).rsp = s.rsp := rfl
@[simp] theorem construct_rst (s : State) :
    (construct s).rst = s.rst := rfl

@[simp] theorem advance_h (n : Nat) (s : State) :
    (advance n s).h = s.h := rfl
@[simp] theorem advance_buf (n : Nat) (s : State) :
    (advance n s).buf = s.buf := rfl
@[simp] theorem advance_bufLen (n : Nat) (s : State) :
    (advance n s).bufLen = s.bufLen := rfl
@[simp] theorem advance_totLen (n : Nat) (s : State) :
    (advance n s).totLen = s.totLen := rfl
@[simp] theorem advance_fcode (n : Nat) (s : State) :
    (advance n s).fcode = s.fcode := rfl
@[simp] theorem advance_cmd (n : Nat) (s : State) :
    (advance n s).cmd = s.cmd := rfl
@[simp] theorem advance_cp (n : Nat) (s : State) :
    (advance n s).cp = s.cp + n := rfl
@[simp] theorem advance_rsp (n : Nat) (s : State) :
    (advance n s).rsp = s.rsp := rfl
@[simp] theorem advance_rst (n : Nat) (s : State) :
    (advance n s).rst = s.rst := rfl

@[simp] theorem countBits_h (n : Nat) (s : State) :
    (countBits n s).h = s.h := rfl
@[simp] theorem countBits_buf (n : Nat) (s : State) :
    (countBits n s).buf = s.buf := rfl
@[simp] theorem countBits_bufLen (n : Nat) (s : State) :
    (countBits n s).bufLen = s.bufLen := rfl
@[simp] theorem countBits_totLen (n : Nat) (s : State) :
    (countBits n s).totLen = s.totLen + BitVec.ofNat 64 n := rfl
@[simp] theorem countBits_fcode (n : Nat) (s : State) :
    (countBits n s).fcode = s.fcode := rfl
@[simp] theorem countBits_cmd (n : Nat) (s : State) :
    (countBits n s).cmd = s.cmd := rfl
@[simp] theorem countBits_cp (n : Nat) (s : State) :
    (countBits n s).cp = s.cp := rfl
@[simp] theorem countBits_rsp (n : Nat) (s : State) :
    (countBits n s).rsp = s.rsp := rfl
@[simp] theorem countBits_rst (n : Nat) (s : State) :
    (countBits n s).rst = s.rst := rfl

@[simp] theorem appendBits_h (bits : Bits) (s : State) :
    (appendBits bits s).h = s.h := rfl
@[simp] theorem appendBits_buf (bits : Bits) (s : State) :
    (appendBits bits s).buf = s.buf ++ bits := rfl
@[simp] theorem appendBits_bufLen (bits : Bits) (s : State) :
    (appendBits bits s).bufLen = s.bufLen + BitVec.ofNat 10 bits.length := rfl
@[simp] theorem appendBits_totLen (bits : Bits) (s : State) :
    (appendBits bits s).totLen = s.totLen := rfl
@[simp] theorem appendBits_fcode (bits : Bits) (s : State) :
    (appendBits bits s).fcode = s.fcode := rfl
@[simp] theorem appendBits_cmd (bits : Bits) (s : State) :
    (appendBits bits s).cmd = s.cmd := rfl
@[simp] theorem appendBits_cp (bits : Bits) (s : State) :
    (appendBits bits s).cp = s.cp := rfl
@[simp] theorem appendBits_rsp (bits : Bits) (s : State) :
    (appendBits bits s).rsp = s.rsp := rfl
@[simp] theorem appendBits_rst (bits : Bits) (s : State) :
    (appendBits bits s).rst = s.rst := rfl

@[simp] theorem storeBlocks_h (c : Chain) (rest : Bits) (s : State) :
    (storeBlocks c rest s).h = c := rfl
@[simp] theorem storeBlocks_buf (c : Chain) (rest : Bits) (s : State) :
    (storeBlocks c rest s).buf = rest := rfl
@[simp] theorem storeBlocks_bufLen (c : Chain) (rest : Bits) (s : State) :
    (storeBlocks c rest s).bufLen = BitVec.ofNat 10 rest.length := rfl
@[simp] theorem storeBlocks_totLen (c : Chain) (rest : Bits) (s : State) :
    (storeBlocks c rest s).totLen = s.totLen := rfl
@[simp] theorem storeBlocks_fcode (c : Chain) (rest : Bits) (s : State) :
    (storeBlocks c rest s).fcode = s.fcode := rfl
@[simp] theorem storeBlocks_cmd (c : Chain) (rest : Bits) (s : State) :
    (storeBlocks c rest s).cmd = s.cmd := rfl
@[simp] theorem storeBlocks_cp (c : Chain) (rest : Bits) (s : State) :
    (storeBlocks c rest s).cp = s.cp := rfl
@[simp] theorem storeBlocks_rsp (c : Chain) (rest : Bits) (s : State) :
    (storeBlocks c rest s).rsp = s.rsp := rfl
@[simp] theorem storeBlocks_rst (c : Chain) (rest : Bits) (s : State) :
    (storeBlocks c rest s).rst = s.rst := rfl

@[simp] theorem pushDigest_h (c : Chain) (s : State) :
    (pushDigest c s).h = s.h := rfl
@[simp] theorem pushDigest_buf (c : Chain) (s : State) :
    (pushDigest c s).buf = s.buf := rfl
@[simp] theorem pushDigest_bufLen (c : Chain) (s : State) :
    (pushDigest c s).bufLen = s.bufLen := rfl
@[simp] theorem pushDigest_totLen (c : Chain) (s : State) :
    (pushDigest c s).totLen = s.totLen := rfl
@[simp] theorem pushDigest_fcode (c : Chain) (s : State) :
    (pushDigest c s).fcode = s.fcode := rfl
@[simp] theorem pushDigest_cmd (c : Chain) (s : State) :
    (pushDigest c s).cmd = s.cmd := rfl
@[simp] theorem pushDigest_cp (c : Chain) (s : State) :
    (pushDigest c s).cp = s.cp := rfl
@[simp] theorem pushDigest_rsp (c : Chain) (s : State) :
    (pushDigest c s).rsp = s.rsp ++ chainWords c := rfl
@[simp] theorem pushDigest_rst (c : Chain) (s : State) :
    (pushDigest c s).rst = s.rst := rfl

@[simp] theorem applyRst_h (s : State) :
    (applyRst s).h = iv := rfl
@[simp] theorem applyRst_buf (s : State) :
    (applyRst s).buf = [] := rfl
@[simp] theorem applyRst_bufLen (s : State) :
    (applyRst s).bufLen = 0#10 := rfl
@[simp] theorem applyRst_totLen (s : State) :
    (applyRst s).totLen = 0#64 := rfl
@[simp] theorem applyRst_fcode (s : State) :
    (applyRst s).fcode = 0#2 := rfl
@[simp] theorem applyRst_cmd (s : State) :
    (applyRst s).cmd = s.cmd := rfl
@[simp] theorem applyRst_cp (s : State) :
    (applyRst s).cp = resetCp s := rfl
@[simp] theorem applyRst_rsp (s : State) :
    (applyRst s).rsp = s.rsp := rfl
@[simp] theorem applyRst_rst (s : State) :
    (applyRst s).rst = false := rfl

@[simp] theorem supply_h (ws : List Word) (s : State) :
    (supply ws s).h = s.h := rfl
@[simp] theorem supply_buf (ws : List Word) (s : State) :
    (supply ws s).buf = s.buf := rfl
@[simp] theorem supply_bufLen (ws : List Word) (s : State) :
    (supply ws s).bufLen = s.bufLen := rfl
@[simp] theorem supply_totLen (ws : List Word) (s : State) :
    (supply ws s).totLen = s.totLen := rfl
@[simp] theorem supply_fcode (ws : List Word) (s : State) :
    (supply ws s).fcode = s.fcode := rfl
@[simp] theorem supply_cmd (ws : List Word) (s : State) :
    (supply ws s).cmd = s.cmd ++ ws := rfl
@[simp] theorem supply_cp (ws : List Word) (s : State) :
    (supply ws s).cp = s.cp := rfl
@[simp] theorem supply_rsp (ws : List Word) (s : State) :
    (supply ws s).rsp = s.rsp := rfl
@[simp] theorem supply_rst (ws : List Word) (s : State) :
    (supply ws s).rst = s.rst := rfl

@[simp] theorem requestRst_h (s : State) :
    (requestRst s).h = s.h := rfl
@[simp] theorem requestRst_buf (s : State) :
    (requestRst s).buf = s.buf := rfl
@[simp] theorem requestRst_bufLen (s : State) :
    (requestRst s).bufLen = s.bufLen := rfl
@[simp] theorem requestRst_totLen (s : State) :
    (requestRst s).totLen = s.totLen := rfl
@[simp] theorem requestRst_fcode (s : State) :
    (requestRst s).fcode = s.fcode := rfl
@[simp] theorem requestRst_cmd (s : State) :
    (requestRst s).cmd = s.cmd := rfl
@[simp] theorem requestRst_cp (s : State) :
    (requestRst s).cp = s.cp := rfl
@[simp] theorem requestRst_rsp (s : State) :
    (requestRst s).rsp = s.rsp := rfl
@[simp] theorem requestRst_rst (s : State) :
    (requestRst s).rst = true := rfl

end Sys2Proof.Machine
end

