-- ==== Sys2Proof/Laws/Step.lean ====
section
/-! SUPPORT. What a command and a step can do, said once: every later proof takes one of these apart. -/

namespace Sys2Proof.Machine

open Safety

@[simp] theorem exec_init (s : State) : exec .init s = .next (whenEnabled initEffect s) := rfl

@[simp] theorem exec_add (bits : Bits) (s : State) : exec (.add bits) s = .next (whenEnabled (addEffect bits) s) := rfl

@[simp] theorem exec_final (s : State) : exec .final s = .next (whenEnabled finalEffect s) := rfl

theorem faulted_iff (s : State) : faulted s = true ↔ s.fcode ≠ 0#2 := by
  simp [faulted]

/-- With the pin low the output `fcode` is FCODE. -/
theorem fcodeOut_of_rst_low (s : State) (hr : s.rst = false) : fcodeOut s = s.fcode := by
  simp [fcodeOut, hr]

/-- With the pin low the output `cmd_ready` says whether FCODE is 0. -/
theorem cmdReady_of_rst_low (s : State) (hr : s.rst = false) : cmdReady s = true ↔ s.fcode = 0#2 := by
  simp [cmdReady, hr, faulted]

theorem whenEnabled_of_ok (f : State → State) (s : State) (h : s.fcode = 0#2) : whenEnabled f s = f s := by
  simp [whenEnabled, faulted, h]

theorem whenEnabled_of_faulted (f : State → State) (s : State) (h : s.fcode ≠ 0#2) : whenEnabled f s = s := by
  simp [whenEnabled, faulted, h]

theorem overflows_iff (t : BitVec 64) (n : Nat) : overflows t n = true ↔ 2 ^ 64 ≤ t.toNat + n := by
  simp [overflows]

/-- Everything an ADD can do: fault at the ceiling, append, compress blocks, or report a block that is not 512 bits. -/
theorem addEffect_cases (bits : Bits) (s : State) :
    (overflows s.totLen bits.length = true ∧ addEffect bits s = raiseFault lengthOverflow s) ∨
    (overflows s.totLen bits.length = false ∧ s.bufLen.toNat + bits.length < 512 ∧
      addEffect bits s = advance (1 + payloadWords bits.length) (appendBits bits (countBits bits.length s))) ∨
    (∃ c rest, overflows s.totLen bits.length = false ∧ 512 ≤ s.bufLen.toNat + bits.length ∧
      addBlocks s bits = some (c, rest) ∧
      addEffect bits s = advance (1 + payloadWords bits.length) (storeBlocks c rest (countBits bits.length s))) ∨
    (overflows s.totLen bits.length = false ∧ 512 ≤ s.bufLen.toNat + bits.length ∧ addBlocks s bits = none ∧
      addEffect bits s = raiseFault blockSizeInvariant s) := by
  unfold addEffect
  split
  · rename_i h; exact .inl ⟨h, rfl⟩
  · rename_i h
    have h' : overflows s.totLen bits.length = false := by simpa using h
    split
    · rename_i hl; exact .inr (.inl ⟨h', hl, rfl⟩)
    · rename_i hl
      split
      · rename_i c rest hb; exact .inr (.inr (.inl ⟨c, rest, h', by omega, hb, rfl⟩))
      · rename_i hb; exact .inr (.inr (.inr ⟨h', by omega, hb, rfl⟩))

/-- Everything a FINAL can do: emit the words of some running state and start afresh. -/
theorem finalEffect_cases (s : State) :
    ∃ c, finalChain s = some c ∧ finalEffect s = advance 1 (construct (pushDigest c s)) := by
  obtain ⟨c, hc⟩ := Option.isSome_iff_exists.mp (finalChain_isSome s)
  exact ⟨c, hc, by simp [finalEffect, hc]⟩

/-- Everything a step can do: RST, nothing in the fault state, a wait, an illegal header, or the decoded command. -/
theorem step_cases {s t : State} (h : step s = .next t) :
    (s.rst = true ∧ t = applyRst s) ∨
    (s.rst = false ∧ s.fcode ≠ 0#2 ∧ t = s) ∨
    (s.rst = false ∧ s.fcode = 0#2 ∧ decode s.cmd s.cp = .needWord ∧ t = awaitWords s) ∨
    (∃ w, s.rst = false ∧ s.fcode = 0#2 ∧ decode s.cmd s.cp = .illegal w ∧ t = rejectHeader s) ∨
    (∃ i n, s.rst = false ∧ s.fcode = 0#2 ∧ decode s.cmd s.cp = .command i n ∧ exec i s = .next t) := by
  unfold step beforeDecode at h
  cases hr : s.rst with
  | true => simp [hr] at h; exact .inl ⟨rfl, h.symm⟩
  | false =>
    by_cases hf : s.fcode = 0#2
    · have hf' : faulted s = false := by simp [faulted, hf]
      simp only [hr, hf', Bool.false_eq_true, if_false] at h
      cases hd : decode s.cmd s.cp with
      | needWord => rw [hd] at h; cases h; exact .inr (.inr (.inl ⟨rfl, hf, rfl, rfl⟩))
      | illegal w => rw [hd] at h; cases h; exact .inr (.inr (.inr (.inl ⟨w, rfl, hf, rfl, rfl⟩)))
      | command i n => rw [hd] at h; exact .inr (.inr (.inr (.inr ⟨i, n, rfl, hf, rfl, h⟩)))
    · have hf' : faulted s = true := by simp [faulted, hf]
      simp [hr, hf'] at h
      exact .inr (.inl ⟨rfl, hf, h.symm⟩)

/-- The step where the pin is low and no fault is pending: what the decoder says. -/
theorem step_of_enabled (s : State) (hr : s.rst = false) (hf : s.fcode = 0#2) :
    step s =
      match decode s.cmd s.cp with
      | .needWord => .next (awaitWords s)
      | .illegal _ => .next (rejectHeader s)
      | .command i _ => exec i s := by
  have hb : beforeDecode s = none := by simp [beforeDecode, hr, faulted, hf]
  cases hd : decode s.cmd s.cp <;> simp [step, hb, hd]

theorem headerOverflows_of_header (s : State) (w : Word) (h : s.cmd[s.cp]? = some w) :
    headerOverflows s = (isAddHeader w && overflows s.totLen (lenField w).toNat) := by
  simp [headerOverflows, drop_of_getElem? s.cmd s.cp w h]

theorem headerOverflows_of_none (s : State) (h : s.cmd[s.cp]? = none) : headerOverflows s = false := by
  have : s.cmd.drop s.cp = [] := List.drop_eq_nil_of_le (List.getElem?_eq_none_iff.mp h)
  simp [headerOverflows, this]

end Sys2Proof.Machine
end

