-- ==== Sys2Proof/Tests/Slice0.lean ====
section
/-! SUPPORT. Tests. Expected values come from spec/95_test_vectors.md (the vector is named) or from the worked example of the
rule named; then one witness for the hypotheses of every statement that has any. -/

namespace Sys2Proof.Tests

open Sys2Proof Machine Safety

/-! States for the tests. -/

/-- A CORE after reset to which the host has supplied `ws`. -/
def after (ws : List Word) : State := supply ws State.reset

/-- The bits of the three bytes "sha" (R105, worked example). -/
def shaBits : Bits :=
  [false, true, true, true, false, false, true, true, false, true, true, false, true, false, false, false,
   false, true, true, false, false, false, false, true]

/-- `n` one-bits buffered, none compressed, and `ws` supplied (T7). -/
def ones (n : Nat) (ws : List Word) : State :=
  { after ws with buf := List.replicate n true, bufLen := BitVec.ofNat 10 n, totLen := BitVec.ofNat 64 n }

/-- TOTLEN at its ceiling, 511 zero bits buffered (T11). -/
def ceiling (ws : List Word) : State :=
  { after ws with buf := List.replicate 511 false, bufLen := 511#10, totLen := BitVec.ofNat 64 (2 ^ 64 - 1) }

/-- "sha" buffered. -/
def shaState : State :=
  { State.reset with buf := shaBits, bufLen := 24#10, totLen := 24#64 }

/-- A field of the state a step or a command leads to. -/
def view {α : Type} (f : State → α) : Host.Outcome State Fault Refusal → Option α
  | .next s => some (f s)
  | .fault _ => none
  | .refused _ => none

/-! Well-formedness. -/

/-- 2^24 bits do not fit the LEN field (R64, R65). -/
theorem test_wf_refuses_long_add : (Instr.add (List.replicate (2 ^ 24) true)).wf = false := by
  simp only [Instr.wf, List.length_replicate, Nat.lt_irrefl, decide_false]

/-- The longest ADD, 2^24 - 1 bits, fits it (R65). -/
theorem test_wf_accepts_longest_add : (Instr.add (List.replicate (2 ^ 24 - 1) true)).wf = true := by
  simp only [Instr.wf, List.length_replicate]
  decide

/-! Decoding (T10). -/

theorem test_decode_init : decode [0x01000000#32] 0 = .command .init 1 := by decide

theorem test_decode_final : decode [0x03000000#32] 0 = .command .final 1 := by decide

theorem test_decode_add_empty : decode [0x02000000#32] 0 = .command (.add []) 1 := by decide

theorem test_decode_add_one : decode [0x02000001#32, 0x80000000#32] 0 = .command (.add [true]) 2 := by decide

theorem test_decode_pad_bits_ignored : decode [0x02000001#32, 0x7FFFFFFF#32] 0 = .command (.add [false]) 2 := by decide

theorem test_decode_add_sha : decode [0x02000018#32, 0x73686100#32] 0 = .command (.add shaBits) 2 := by decide

theorem test_decode_add_two_words :
    decode [0x02000021#32, 0x00000001#32, 0x80000000#32] 0 =
      .command (.add (List.replicate 31 false ++ [true, true])) 3 := by decide

theorem test_decode_truncated : decode [0x02000021#32, 0xDEADBEEF#32] 0 = .needWord := by decide

theorem test_decode_longest_truncated : decode [0x02FFFFFF#32] 0 = .needWord := by decide

theorem test_decode_illegal_words :
    decode [0x00000000#32] 0 = .illegal 0x00000000#32 ∧ decode [0x04000000#32] 0 = .illegal 0x04000000#32 ∧
    decode [0xFF000000#32] 0 = .illegal 0xFF000000#32 ∧ decode [0x01000001#32] 0 = .illegal 0x01000001#32 ∧
    decode [0x03800000#32] 0 = .illegal 0x03800000#32 := by decide

/-- The encodings of P2's first and fourth ADD (R64, R67, R68). -/
theorem test_encode_p2 :
    encode (.add [false, true, true]) = [0x02000003#32, 0x60000000#32] ∧
    encode (.add [false, true, false, false, false, false, true, true, false, false, false, false, true]) =
      [0x0200000D#32, 0x43080000#32] := by decide

/-- The opcode table's rows, as the host numbers their bits. -/
theorem test_table_rows :
    decodeTableWord 32 0x01000000 = some .init ∧ decodeTableWord 32 0x03000000 = some .final ∧
    decodeTableWord 32 0x02000000 = some (.add []) ∧ decodeTableWord 32 0x02000002 = some (.add [false, false]) ∧
    decodeTableWord 32 0x00000000 = none := by decide

/-- The placed command is the next one executed, one header and one payload word here. -/
theorem test_place_add :
    view (fun t => (t.buf, t.cp)) (step (State.reset.withFetchWord 32 0x02000002)) = some ([false, false], 2) := by decide

/-! The compression core. -/

/-- T1. -/
theorem test_rotl :
    rotl 0x80000001#32 1 = 0x00000003#32 ∧ rotl 0x80000001#32 30 = 0x60000000#32 ∧ rotl 0x12345678#32 32 = 0x12345678#32 ∧
    rotl 0x12345678#32 33 = 0x2468ACF0#32 ∧ rotl 0x67452301#32 5 = 0xE8A4602C#32 := by decide

/-- T2, the row F0F0F0F0, and the row 12345678. -/
theorem test_round_functions :
    ch 0xF0F0F0F0#32 0xFF00FF00#32 0x0F0F0F0F#32 = 0xFF0FFF0F#32 ∧
    parity 0xF0F0F0F0#32 0xFF00FF00#32 0x0F0F0F0F#32 = 0x00FF00FF#32 ∧
    maj 0xF0F0F0F0#32 0xFF00FF00#32 0x0F0F0F0F#32 = 0xFF00FF00#32 ∧
    ch 0x12345678#32 0x12345678#32 0xDEADBEEF#32 = 0xDEBDFEFF#32 := by decide

/-- T3, the rounds on each side of every stage boundary. -/
theorem test_stage_boundaries :
    ([0, 19, 20, 39, 40, 59, 60, 79].map fun i =>
      (roundStep i 0x00000003#32
        { a := 0x00000001#32, b := 0xF0F0F0F0#32, c := 0xFF00FF00#32, d := 0x0F0F0F0F#32, e := 0x00000002#32 }).a) =
      [0x599278CD#32, 0x599278CD#32, 0x6FD8ECC5#32, 0x6FD8ECC5#32, 0x8E1CBC01#32, 0x8E1CBC01#32, 0xCB61C2FA#32,
       0xCB61C2FA#32] := by decide

/-- T4, the last schedule words of the "sha" block. -/
theorem test_schedule_sha :
    (schedule (0x73686180#32 :: List.replicate 14 0#32 ++ [0x00000018#32])).drop 77 =
      [0x00F60A00#32, 0x71978ED9#32, 0x08288AEB#32] := by decide +kernel

/-- T5b, all ones. -/
theorem test_compress_ones :
    compress { h0 := 0xFFFFFFFF#32, h1 := 0xFFFFFFFF#32, h2 := 0xFFFFFFFF#32, h3 := 0xFFFFFFFF#32, h4 := 0xFFFFFFFF#32 }
      (List.replicate 16 0xFFFFFFFF#32) =
      { h0 := 0x3F48159B#32, h1 := 0x2DCE51FA#32, h2 := 0x8A1E930A#32, h3 := 0x02083B68#32, h4 := 0xEF70D6E8#32 } := by
  decide +kernel

/-- T5b, IV and the block 0, 1, ..., 15, in the interleaved form (R94). -/
theorem test_compress_rolling :
    compressRolling iv ((List.range 16).map (BitVec.ofNat 32)) =
      { h0 := 0x165F0B97#32, h1 := 0x307F6B4A#32, h2 := 0x2ABAB314#32, h3 := 0x6CFAF569#32, h4 := 0x9C2B7D64#32 } := by
  decide +kernel

/-! Padding (T6). -/

/-- T6, n = 33. -/
theorem test_pad_one_block :
    words (pad (List.replicate 33 true) 33#64) =
      [0xFFFFFFFF#32, 0xC0000000#32] ++ List.replicate 13 0#32 ++ [0x00000021#32] := by decide +kernel

/-- T6, n = 448: the 1 bit stands in the first block, the length in the second. -/
theorem test_pad_two_blocks :
    words (pad (List.replicate 448 true) 448#64) = List.replicate 14 0xFFFFFFFF#32 ++ [0x80000000#32, 0#32] ∧
    words ((pad (List.replicate 448 true) 448#64).drop 512) = List.replicate 15 0#32 ++ [0x000001C0#32] := by
  decide +kernel

/-! INIT, ADD, FINAL. -/

/-- P6: INIT abandons a message in progress; cp moves by one word. -/
theorem test_init_abandons :
    view (fun t => (engine t, t.cp, t.rsp)) (exec .init shaState) = some (freshEngine, 1, []) := by decide

/-- R105, worked example: the short path. -/
theorem test_add_short :
    view (fun t => (t.h, t.buf, t.bufLen, t.totLen, t.cp)) (step (after [0x02000018#32, 0x73686100#32])) =
      some (iv, shaBits, 24#10, 24#64, 2) := by decide

/-- T7, command 7: 100 bits buffered, 1024 more: one filled block, one whole block, 100 bits left. -/
theorem test_add_blocks :
    view (fun t => (t.h, t.buf, t.bufLen, t.totLen))
      (exec (.add (List.replicate 1024 true))
        { ones 100 [] with
          h := { h0 := 0x6F99E93A#32, h1 := 0x7E89A46D#32, h2 := 0x2D303BF9#32, h3 := 0x42438F01#32, h4 := 0x2C6D50F6#32 }
          totLen := 1124#64 }) =
      some ({ h0 := 0x192444C5#32, h1 := 0x30DE5350#32, h2 := 0x5D59AAB2#32, h3 := 0xC0227402#32, h4 := 0x3DFD4555#32 },
        List.replicate 100 true, 100#10, 2148#64) := by decide +kernel

/-- S2: the digest of "sha", and the engine afterwards. -/
theorem test_final_sha :
    view (fun t => (t.rsp, engine t)) (exec .final shaState) =
      some ([0xD8F45903#32, 0x20E1343A#32, 0x915B6394#32, 0x170650A8#32, 0xF35D6926#32], freshEngine) := by
  decide +kernel

/-- T11: FINAL at the ceiling compresses two blocks and does not fault. -/
theorem test_final_at_ceiling :
    view (fun t => (t.rsp, t.fcode)) (exec .final (ceiling [])) =
      some ([0x1658DE69#32, 0xAA8A6F45#32, 0x98E8A835#32, 0x046A1803#32, 0xD06B8D20#32], 0#2) := by decide +kernel

/-! Faults, holds, reset. -/

/-- T11, row 2, with the payload not supplied (R137): the ADD faults at its header. -/
theorem test_overflow_faults :
    view (fun t => (t.fcode, t.cp, t.bufLen, t.totLen)) (step (ceiling [0x02000001#32])) =
      some (2#2, 1, 511#10, BitVec.ofNat 64 (2 ^ 64 - 1)) := by decide +kernel

/-- T11, row 1: an empty ADD at the ceiling does not fault. -/
theorem test_empty_add_at_ceiling :
    view (fun t => (t.fcode, t.cp)) (step (ceiling [0x02000000#32])) = some (0#2, 1) := by decide +kernel

/-- T10: an illegal word faults and is consumed. -/
theorem test_illegal_word : step (after [0#32]) = .next { after [0#32] with fcode := 1#2, cp := 1 } := by rfl

/-- P8: a truncated ADD holds, cp at its header. -/
theorem test_truncated_add_holds :
    step (after [0x02000028#32, 0x61626364#32]) = .next (after [0x02000028#32, 0x61626364#32]) := by rfl

/-- R140, R141: in the fault state an INIT is not executed. -/
theorem test_fault_state : step { after [0x01000000#32] with fcode := 1#2 } = .next { after [0x01000000#32] with fcode := 1#2 } := by
  rfl

/-- R150: RST leaves the fault state, and cp stays at the word after the faulting header. -/
theorem test_rst :
    view (fun t => (engine t, t.fcode, t.cp, t.rst)) (step { shaState with fcode := 2#2, cmd := [0x00#32, 0x03000000#32], cp := 1, rst := true }) =
      some (freshEngine, 0#2, 1, false) := by decide

/-- S2, R118: the digest as text. -/
theorem test_digest_text :
    digestText [0xD8F45903#32, 0x20E1343A#32, 0x915B6394#32, 0x170650A8#32, 0xF35D6926#32] =
      "d8f4590320e1343a915b6394170650a8f35d6926".toList := by decide

/-- P1: the encoding of the listing of HASH "sha". -/
theorem test_encode_listing :
    encodeListing (hash [bitsOfBytes [0x73#8, 0x68#8, 0x61#8]]) =
      [0x01000000#32, 0x02000018#32, 0x73686100#32, 0x03000000#32] := by decide

/-! Witnesses: a concrete state and operands that meet all the hypotheses of a statement, and for a statement of several clauses
one for each clause at its boundary. -/

theorem ok_reset : BufferOk State.reset := ⟨by decide, by decide⟩

theorem ok_sha : BufferOk shaState := ⟨by decide, by decide⟩

theorem ok_ones (n : Nat) (h : n < 512) (ws : List Word) : BufferOk (ones n ws) :=
  ⟨by simp [ones]; omega, by simpa [ones] using h⟩

theorem ok_ceiling (ws : List Word) : BufferOk (ceiling ws) :=
  ⟨by simp only [ceiling, List.length_replicate]; decide, by simp only [ceiling, List.length_replicate]; decide⟩

/-- A held ADD of 40 bits with one of two payload words, the pin low. -/
def truncated : State := after [0x02000028#32, 0x61626364#32]

theorem test_hyp_RstTakesConstructionState :
    (requestRst shaState).rst = true ∧
    ({ requestRst shaState with fcode := 1#2 } : State).fcode ≠ 0#2 ∧
    step { requestRst shaState with fcode := 1#2 } = .next (applyRst { requestRst shaState with fcode := 1#2 }) ∧
    (applyRst { requestRst shaState with fcode := 1#2 }).fcode = 0#2 := ⟨rfl, by decide, rfl, rfl⟩

/-- An ADD of 40 bits with one of its two payload words. -/
theorem test_hyp_RstDiscardsPartialCommand : (requestRst truncated).rst = true ∧ PartlyReceived (requestRst truncated) :=
  ⟨rfl, rfl, 0x02000028#32, by decide⟩

theorem not_partlyReceived (s : State) (w : Word) (h : s.cmd[s.cp]? = some w)
    (h' : w.extractLsb' 24 8 ≠ 0x02#8 ∨ 2 ^ 64 ≤ s.totLen.toNat + (w.extractLsb' 0 24).toNat ∨
      s.cp + 1 + ((w.extractLsb' 0 24).toNat + 31) / 32 ≤ s.cmd.length) : ¬PartlyReceived s := by
  rintro ⟨-, v, hv, h1, h2, h3⟩
  cases h.symm.trans hv
  rcases h' with h' | h' | h'
  · exact h' h1
  · omega
  · omega

/-- The other clause: the payload just there, a whole FINAL, an illegal header, an overflowing ADD, no word, a fault. -/
theorem test_hyp_RstDiscardsPartialCommand_else :
    ¬PartlyReceived (requestRst (supply [0x65000000#32] truncated)) ∧
    ¬PartlyReceived (requestRst (after [0x03000000#32])) ∧ ¬PartlyReceived (requestRst (after [0x04000000#32])) ∧
    ¬PartlyReceived (requestRst (ceiling [0x02000001#32])) ∧ ¬PartlyReceived (requestRst (after [])) ∧
    ¬PartlyReceived { requestRst truncated with fcode := 2#2 } :=
  ⟨not_partlyReceived _ 0x02000028#32 rfl (by decide), not_partlyReceived _ 0x03000000#32 rfl (by decide),
    not_partlyReceived _ 0x04000000#32 rfl (by decide),
    not_partlyReceived _ 0x02000001#32 rfl (.inr (.inl (by decide))),
    (fun ⟨_, _, h, _⟩ => by cases h), (fun ⟨h, _⟩ => by cases h)⟩

theorem test_hyp_InitConstructs : shaState.fcode = 0#2 := rfl

/-- Below the ceiling by one bit, and at it. -/
theorem test_hyp_AddCountsEveryBit :
    (ceiling []).fcode = 0#2 ∧ BufferOk (ceiling []) ∧ (ceiling []).totLen.toNat + ([] : Bits).length < 2 ^ 64 ∧
    2 ^ 64 ≤ (ceiling []).totLen.toNat + [true].length := ⟨rfl, ok_ceiling [], by decide, by decide⟩

/-- BUFLEN + LEN = 511, the longest short path. -/
theorem test_hyp_AddShortPath :
    (ones 510 []).fcode = 0#2 ∧ (ones 510 []).totLen.toNat + [true].length < 2 ^ 64 ∧
    (ones 510 []).bufLen.toNat + [true].length < 512 := by decide

/-- BUFLEN + LEN = 512, the shortest block path. -/
theorem test_hyp_AddBlockPath :
    (ones 511 []).fcode = 0#2 ∧ BufferOk (ones 511 []) ∧ (ones 511 []).totLen.toNat + [true].length < 2 ^ 64 ∧
    512 ≤ (ones 511 []).bufLen.toNat + [true].length ∧ 1 = 512 - (ones 511 []).bufLen.toNat :=
  ⟨rfl, ok_ones 511 (by decide) [], by decide, by decide, by decide⟩

theorem test_hyp_AddCountLaw :
    (ones 511 []).fcode = 0#2 ∧ BufferOk (ones 511 []) ∧ (ones 511 []).totLen.toNat + [true].length < 2 ^ 64 :=
  ⟨rfl, ok_ones 511 (by decide) [], by decide⟩

/-- The clauses: no bit; 511 bits; 512 bits from a partly filled and from an empty buffer. -/
theorem test_hyp_AddCornerCases :
    ([] : Bits) = [] ∧ BufferOk (ones 510 []) ∧ (ones 510 []).bufLen.toNat + [true].length = 511 ∧
    BufferOk (ones 511 []) ∧ (ones 511 []).bufLen.toNat + [true].length = 512 ∧
    BufferOk State.reset ∧ State.reset.bufLen = 0#10 ∧ (List.replicate 512 true).length = 512 * 1 ∧
    State.reset.fcode = 0#2 ∧ State.reset.totLen.toNat + (List.replicate 512 true).length < 2 ^ 64 ∧
    512 ≤ State.reset.bufLen.toNat + (List.replicate 512 true).length :=
  ⟨rfl, ok_ones 510 (by decide) [], by decide, ok_ones 511 (by decide) [], by decide, ok_reset, rfl, by decide +kernel, rfl, by decide +kernel,
    by decide +kernel⟩

/-- At the ceiling by one bit, and one bit below it. -/
theorem test_hyp_AddOverflowFaults :
    (ceiling [0x02000001#32]).rst = false ∧ (ceiling [0x02000001#32]).fcode = 0#2 ∧
    (ceiling [0x02000001#32]).cmd[(ceiling [0x02000001#32]).cp]? = some 0x02000001#32 ∧
    (0x02000001#32).extractLsb' 24 8 = 0x02#8 ∧
    2 ^ 64 ≤ (ceiling [0x02000001#32]).totLen.toNat + ((0x02000001#32).extractLsb' 0 24).toNat ∧
    2 ^ 64 ≤ (ceiling []).totLen.toNat + [true].length ∧ BufferOk (ceiling []) ∧
    (ceiling []).totLen.toNat + ([] : Bits).length < 2 ^ 64 :=
  ⟨rfl, rfl, rfl, by decide, by decide, by decide, ok_ceiling [], by decide⟩

/-- Both sides of the boundary between one block and two. -/
theorem test_hyp_PadShape :
    (List.replicate 447 true).length ≤ 447 ∧ 448 ≤ (List.replicate 448 true).length ∧
    (List.replicate 448 true).length < 512 ∧ (List.replicate 511 true).length < 512 := by decide +kernel

/-- The same, and a bit of the zeros: position 449 of the padding of 448 bits. -/
theorem test_hyp_PaddedBufferIsOneOrTwoBlocks :
    (List.replicate 447 true).length ≤ 447 ∧ 448 ≤ (List.replicate 448 true).length ∧
    (List.replicate 448 true).length < 449 ∧ 449 < (pad (List.replicate 448 true) 448#64).length - 64 := by decide +kernel

/-- One block and two. -/
theorem test_hyp_FinalEmitsDigest :
    (ones 447 []).fcode = 0#2 ∧ BufferOk (ones 447 []) ∧ (ones 447 []).buf.length ≤ 447 ∧
    (ones 448 []).fcode = 0#2 ∧ BufferOk (ones 448 []) ∧ ¬(ones 448 []).buf.length ≤ 447 :=
  ⟨rfl, ok_ones 447 (by decide) [], by decide +kernel, rfl, ok_ones 448 (by decide) [], by decide +kernel⟩

/-- The chain that statement names exists for every state (here both of the states above at once). -/
theorem test_hyp_FinalEmitsDigest_chain (s : State) :
    ∃ c : Chain, c = (if s.buf.length ≤ 447 then compress s.h (words (pad s.buf s.totLen))
      else compress (compress s.h (words ((pad s.buf s.totLen).take 512))) (words ((pad s.buf s.totLen).drop 512))) :=
  ⟨_, rfl⟩

theorem test_hyp_FinalReturnsToConstruction : shaState.fcode = 0#2 := rfl

theorem test_hyp_FinalTwiceEmitsEmptyDigest :
    shaState.fcode = 0#2 ∧ State.reset.fcode = 0#2 ∧ engine State.reset = freshEngine := by decide

theorem test_hyp_OnlyAddFaultsAndOnlyAtTheCeiling :
    shaState.fcode = 0#2 ∧ (ceiling []).fcode = 0#2 ∧ BufferOk (ceiling []) := ⟨rfl, rfl, ok_ceiling []⟩

/-- Two pieces of a byte, the total one bit below the ceiling's start. -/
theorem test_hyp_ChunkingInvariance :
    shaState.fcode = 0#2 ∧ BufferOk shaState ∧ shaState.totLen.toNat + [[true, false, true], [false]].flatten.length < 2 ^ 64 :=
  ⟨rfl, ok_sha, by decide⟩

/-- P2's pieces of "sha". -/
theorem test_hyp_FinalComputesSha1OfMessage :
    State.reset.fcode = 0#2 ∧ engine State.reset = freshEngine ∧
    [shaBits.take 3, [], (shaBits.drop 3).take 8, shaBits.drop 11].flatten.length < 2 ^ 64 := by decide

theorem test_hyp_DigestDependsOnMessageAlone :
    State.reset.fcode = 0#2 ∧ engine State.reset = freshEngine ∧ (after [0#32]).fcode = 0#2 ∧
    engine (after [0#32]) = freshEngine ∧
    [shaBits.take 3, [], (shaBits.drop 3).take 8, shaBits.drop 11].flatten = [shaBits].flatten ∧
    [shaBits].flatten.length < 2 ^ 64 := by decide

theorem test_hyp_EveryCompressedBlockHas512Bits :
    BufferOk (ones 511 []) ∧ 512 ≤ (ones 511 []).bufLen.toNat + [true].length ∧
    512 < (pad (ones 448 []).buf (ones 448 []).totLen).length :=
  ⟨ok_ones 511 (by decide) [], by decide, by decide +kernel⟩

theorem test_hyp_InvKeptByEveryStep :
    Inv (after [0x00000000#32]) ∧ step (after [0x00000000#32]) = .next (rejectHeader (after [0x00000000#32])) :=
  ⟨⟨⟨rfl, by decide⟩, rfl, rfl, by decide, by decide⟩, rfl⟩

/-- Each command, and the short path of ADD. -/
theorem test_hyp_CommandFrames :
    exec .init shaState = .next (initEffect shaState) ∧ exec (.add [true]) shaState = .next (addEffect [true] shaState) ∧
    shaState.bufLen.toNat + [true].length < 512 ∧ exec .final shaState = .next (whenEnabled finalEffect shaState) ∧
    shaState.fcode = 0#2 := ⟨rfl, rfl, by decide, rfl, rfl⟩

/-- Both kinds of illegal header (R71 a and b). -/
theorem test_hyp_IllegalHeaderFaults :
    (after [0x04000000#32]).rst = false ∧ (after [0x04000000#32]).fcode = 0#2 ∧
    (after [0x04000000#32]).cmd[(after [0x04000000#32]).cp]? = some 0x04000000#32 ∧ IllegalHeader 0x04000000#32 ∧
    (after [0x01000001#32]).cmd[(after [0x01000001#32]).cp]? = some 0x01000001#32 ∧ IllegalHeader 0x01000001#32 :=
  ⟨rfl, rfl, rfl, .inl (by decide), rfl, .inr (by decide)⟩

/-- No header; a missing payload word; one that is supplied later, and none. -/
theorem test_hyp_TruncatedCommandHolds :
    State.reset.rst = false ∧ State.reset.fcode = 0#2 ∧ State.reset.cmd.length ≤ State.reset.cp ∧
    truncated.cmd[truncated.cp]? = some 0x02000028#32 ∧ (0x02000028#32).extractLsb' 24 8 = 0x02#8 ∧
    truncated.totLen.toNat + ((0x02000028#32).extractLsb' 0 24).toNat < 2 ^ 64 ∧
    truncated.cmd.length < truncated.cp + 1 + (((0x02000028#32).extractLsb' 0 24).toNat + 31) / 32 ∧
    truncated.cmd.length + ([] : List Word).length < truncated.cp + 1 + (((0x02000028#32).extractLsb' 0 24).toNat + 31) / 32 ∧
    truncated.cp + 1 + (((0x02000028#32).extractLsb' 0 24).toNat + 31) / 32 ≤ truncated.cmd.length + [0x65000000#32].length := by
  decide

theorem test_hyp_FaultStateIsSticky :
    ({ shaState with fcode := 1#2 } : State).fcode ≠ 0#2 ∧ ({ shaState with fcode := 1#2 } : State).rst = false := by decide

theorem test_hyp_FaultsArePrecise :
    (after [0x00000000#32]).fcode = 0#2 ∧ step (after [0x00000000#32]) = .next (rejectHeader (after [0x00000000#32])) ∧
    (rejectHeader (after [0x00000000#32])).fcode ≠ 0#2 := ⟨rfl, rfl, by decide⟩

theorem test_hyp_FcodeWrittenByFaultsAndRstOnly :
    step (after [0x00000000#32]) = .next (rejectHeader (after [0x00000000#32])) ∧
    (rejectHeader (after [0x00000000#32])).fcode ≠ (after [0x00000000#32]).fcode := ⟨rfl, by decide⟩

/-- One state of each kind: final, held, faulted, and one that moves. -/
theorem test_hyp_RunStandsStillOnlyWhenFinalHeldOrFaulted :
    State.reset.rst = false ∧ State.reset.cp ≤ State.reset.cmd.length ∧ Final State.reset ∧ Held truncated ∧
    truncated.rst = false ∧ truncated.cp ≤ truncated.cmd.length ∧ Faulted { truncated with fcode := 1#2 } ∧
    (after [0x01000000#32]).rst = false ∧ (after [0x01000000#32]).cp ≤ (after [0x01000000#32]).cmd.length ∧
    ¬(Final (after [0x01000000#32]) ∨ Held (after [0x01000000#32]) ∨ Faulted (after [0x01000000#32])) :=
  ⟨rfl, by decide, ⟨rfl, rfl⟩, ⟨by decide, by decide⟩, rfl, by decide, by unfold Faulted; decide, rfl, by decide, by
    unfold Final Held Faulted
    decide⟩

theorem test_hyp_StepRunsDecodedCommand :
    (after [0x02000018#32, 0x73686100#32]).rst = false ∧ (after [0x02000018#32, 0x73686100#32]).fcode = 0#2 ∧
    decode (after [0x02000018#32, 0x73686100#32]).cmd (after [0x02000018#32, 0x73686100#32]).cp =
      .command (.add shaBits) 2 := by decide

/-- The five cases of the decoder; the ADD with its payload just missing and just there. -/
theorem test_hyp_DecoderFollowsItsTable :
    ([] : List Word)[0]? = none ∧ [0x01000000#32][0]? = some 0x01000000#32 ∧ [0x03000000#32][0]? = some 0x03000000#32 ∧
    truncated.cmd[0]? = some 0x02000028#32 ∧ (0x02000028#32).extractLsb' 24 8 = 0x02#8 ∧
    truncated.cmd.length < 0 + 1 + (((0x02000028#32).extractLsb' 0 24).toNat + 31) / 32 ∧
    0 + 1 + (((0x02000028#32).extractLsb' 0 24).toNat + 31) / 32 ≤ (truncated.cmd ++ [0x65000000#32]).length ∧
    IllegalHeader 0x03800000#32 :=
  ⟨rfl, rfl, rfl, rfl, by decide, by decide, by decide, .inr (by decide)⟩

/-- One bit in the word: r = 1; and r = 31, the shortest pad. -/
theorem test_hyp_PadBitsAreIgnored :
    (after [0x02000001#32, 0x80000000#32]).cmd[0]? = some 0x02000001#32 ∧ (0x02000001#32).extractLsb' 24 8 = 0x02#8 ∧
    1 = ((0x02000001#32).extractLsb' 0 24).toNat % 32 ∧ 1 ≠ 0 ∧
    (after [0x02000001#32, 0x80000000#32]).cmd[0 + (((0x02000001#32).extractLsb' 0 24).toNat + 31) / 32]? =
      some 0x80000000#32 ∧
    (0x80000000#32) >>> (32 - 1) = (0xFFFFFFFF#32) >>> (32 - 1) ∧
    31 = ((0x0200001F#32).extractLsb' 0 24).toNat % 32 ∧ (0xFFFFFFFE#32) >>> (32 - 31) = (0xFFFFFFFF#32) >>> (32 - 31) ∧
    (after [0x02000001#32, 0x80000000#32]).rst = false ∧ (after [0x02000001#32, 0x80000000#32]).fcode = 0#2 ∧
    (after [0x02000001#32, 0x80000000#32]).totLen.toNat + ((0x02000001#32).extractLsb' 0 24).toNat < 2 ^ 64 := by decide

theorem test_hyp_PadBitsAreIgnored_buffer : BufferOk (after [0x02000001#32, 0x80000000#32]) := ⟨by decide, by decide⟩

/-- A command that completes, and a word that faults. -/
theorem test_hyp_CommandLengthFromHeader :
    (after [0x02000018#32, 0x73686100#32]).rst = false ∧ (after [0x02000018#32, 0x73686100#32]).fcode = 0#2 ∧
    (after [0x02000018#32, 0x73686100#32]).cmd[(after [0x02000018#32, 0x73686100#32]).cp]? = some 0x02000018#32 ∧
    decode (after [0x02000018#32, 0x73686100#32]).cmd (after [0x02000018#32, 0x73686100#32]).cp =
      .command (.add shaBits) 2 ∧
    step (after [0x00000000#32]) = .next (rejectHeader (after [0x00000000#32])) ∧
    (rejectHeader (after [0x00000000#32])).fcode ≠ 0#2 :=
  ⟨rfl, rfl, rfl, by decide, rfl, by decide⟩

theorem test_hyp_DecodeOfEncode :
    Instr.init.wf = true ∧ (Instr.add shaBits).wf = true ∧ Instr.final.wf = true := by decide

theorem test_hyp_EncodeOfDecoded :
    decode [0x02000001#32, 0xFFFFFFFF#32] 0 = .command (.add [true]) 2 ∧ decode [0x01000000#32] 0 = .command .init 1 ∧
    decode [0x03000000#32] 0 = .command .final 1 := by decide

theorem test_hyp_LaterWordsDoNotChangeAStep :
    held (after [0x00000000#32]) = false ∧
    step (after [0x00000000#32]) = .next (rejectHeader (after [0x00000000#32])) := ⟨by decide, rfl⟩

theorem test_hyp_StreamsOnlyMoveForward :
    step (after [0x00000000#32]) = .next (rejectHeader (after [0x00000000#32])) := rfl

theorem test_hyp_RotlMovesEveryBit : 31 < 32 := by decide

theorem test_hyp_RoundFunctionsBitByBit : 31 < 32 := by decide

/-- The rounds where two stages meet. -/
theorem test_hyp_StageTable :
    19 < 20 ∧ (20 ≤ 20 ∧ 20 < 40) ∧ (20 ≤ 39 ∧ 39 < 40) ∧ (40 ≤ 40 ∧ 40 < 60) ∧ (40 ≤ 59 ∧ 59 < 60) ∧
    (60 ≤ 60 ∧ 60 < 80) ∧ (60 ≤ 79 ∧ 79 < 80) := by decide

theorem test_hyp_ScheduleRecurrence : (List.replicate 16 0#32).length = 16 ∧ 15 < 16 ∧ 16 ≤ 79 ∧ 79 < 80 := by decide

theorem test_hyp_CompressIsEightyRounds : (List.replicate 16 0#32).length = 16 ∧ 79 < 80 := by decide

theorem test_hyp_RollingWindowComputesCompress : (List.replicate 16 0#32).length = 16 := by decide

theorem test_hyp_BlockWordsBitOrder : (List.replicate 512 true).length = 512 ∧ 15 < 16 ∧ 31 < 32 := by decide +kernel

theorem test_hyp_LengthFieldWords : (List.replicate 448 true).length = 448 ∧ 63 < 64 := by decide +kernel

theorem test_hyp_PackedBlockWords :
    (List.replicate 512 false).length = 512 ∧ PackedForm 0#512 (List.replicate 512 false) ∧ 15 < 16 := by
  refine ⟨List.length_replicate, fun p b h => ?_, by decide⟩
  obtain ⟨_, rfl⟩ := List.getElem?_eq_some_iff.mp h
  rw [List.getElem_replicate, BitVec.getLsbD_zero]

theorem test_hyp_BytesPackInReadingOrder : 7 < 8 := by decide

end Sys2Proof.Tests
end

/-! The byte order of payload words (R43): bytes to bits, and four bytes in one word. -/

namespace Sys2Proof.Machine

theorem bitsOfBytes_cons (b : BitVec 8) (m : List (BitVec 8)) :
    bitsOfBytes (b :: m) = ((List.range 8).map fun k => b.getLsbD (7 - k)) ++ bitsOfBytes m := rfl

@[simp] theorem bitsOfBytes_length (m : List (BitVec 8)) : (bitsOfBytes m).length = 8 * m.length := by
  induction m with
  | nil => rfl
  | cons b m ih => simp [bitsOfBytes_cons, ih]; omega

/-- The bits of byte j start at bit 8 j of the sequence, the most significant first. -/
theorem bitsOfBytes_getElem? (m : List (BitVec 8)) (j k : Nat) (hk : k < 8) :
    (bitsOfBytes m)[8 * j + k]? = m[j]?.map fun b => b.getLsbD (7 - k) := by
  induction m generalizing j with
  | nil => simp [bitsOfBytes]
  | cons b m ih =>
    rw [bitsOfBytes_cons]
    cases j with
    | zero => rw [List.getElem?_append_left (by simpa using hk)]; simp [hk]
    | succ j =>
      rw [List.getElem?_append_right (by simp; omega), List.length_map, List.length_range,
        show 8 * (j + 1) + k - 8 = 8 * j + k by omega, ih, List.getElem?_cons_succ]

theorem wordOfBits_wordBits (w : Word) : wordOfBits (wordBits w) = w := by
  refine word_ext _ _ fun k hk => ?_
  have h := getLsbD_wordOfBits (wordBits w) k (wordBits_length w) hk
  rw [wordBits_getElem? w k hk] at h
  exact (Option.some.inj h).symm

/-- The 32 bits of a word pack into that word alone. -/
theorem packWords_wordBits (w : Word) : packWords (wordBits w) = [w] := by
  have hfirst : wordAt (wordBits w ++ List.replicate 31 false) 0 = w := by
    rw [wordAt, Nat.mul_zero, List.drop_zero, List.take_left' (wordBits_length w), wordOfBits_wordBits]
  rw [packWords, wordBits_length, show payloadWords 32 = 1 from rfl, List.range_one, List.map_singleton, hfirst]

theorem messageBits_singleton (w : Word) : messageBits 32 [w] = wordBits w := by
  simp [messageBits]

/-- In message order, the bits of {b₀, b₁, b₂, b₃} are those of its four bytes, b₀ first. -/
theorem wordBits_append_bytes (b₀ b₁ b₂ b₃ : BitVec 8) :
    wordBits (b₀ ++ b₁ ++ b₂ ++ b₃) = bitsOfBytes [b₀, b₁, b₂, b₃] := by
  apply List.ext_getElem?
  intro p
  by_cases hp : p < 32
  · obtain ⟨j, k, hj, hk, rfl⟩ : ∃ j k, j < 4 ∧ k < 8 ∧ p = 8 * j + k :=
      ⟨p / 8, p % 8, by omega, by omega, by omega⟩
    rw [bitsOfBytes_getElem? _ j k hk, wordBits_getElem? _ _ hp]
    simp only [BitVec.getLsbD_append]
    interval_cases j <;> grind
  · rw [List.getElem?_eq_none (by simpa using hp), List.getElem?_eq_none (by simpa using hp)]

end Sys2Proof.Machine

namespace Sys2Proof.Proofs

open Machine

/-- Settles O50: byte by byte for the bits of a byte string, and by the message-order bits of the word
{b₀, b₁, b₂, b₃} for the packing and the unpacking. -/
theorem bytesPackInReadingOrder : Obligations.BytesPackInReadingOrder := by
  refine ⟨bitsOfBytes_getElem?, fun b₀ b₁ b₂ b₃ => ?_⟩
  rw [← wordBits_append_bytes]
  exact ⟨packWords_wordBits _, messageBits_singleton _⟩

end Sys2Proof.Proofs

/-! The decoder on each kind of header word: the ADD with and without its payload (R66, R67, R74), and the illegal one
(R71). -/

namespace Sys2Proof

open Machine Safety

theorem decode_addHeader_needWord {cmd : List Word} {cp : Nat} {w : Word} (h : cmd[cp]? = some w)
    (hw : isAddHeader w = true) (hlen : cmd.length < cp + 1 + payloadWords (lenField w).toNat) :
    decode cmd cp = .needWord := by
  have hlt := (List.getElem?_eq_some_iff.mp h).1
  rw [decode_addHeader cmd cp w h hw, decodeAdd, if_pos (by rw [List.length_drop]; omega)]

theorem decode_addHeader_command {cmd : List Word} {cp : Nat} {w : Word} (h : cmd[cp]? = some w)
    (hw : isAddHeader w = true) (hlen : cp + 1 + payloadWords (lenField w).toNat ≤ cmd.length) :
    decode cmd cp =
      .command (.add (messageBits (lenField w).toNat ((cmd.drop (cp + 1)).take (payloadWords (lenField w).toNat))))
        (cp + 1 + payloadWords (lenField w).toNat) := by
  rw [decode_addHeader cmd cp w h hw, decodeAdd, if_neg (by rw [List.length_drop]; omega)]

theorem illegalHeader_not_command {w : Word} (h : IllegalHeader w) :
    w ≠ 0x01000000#32 ∧ w ≠ 0x03000000#32 ∧ isAddHeader w = false := by
  refine ⟨?_, ?_, Bool.eq_false_iff.mpr fun hadd => ?_⟩
  · rintro rfl
    simp [IllegalHeader] at h
  · rintro rfl
    simp [IllegalHeader] at h
  · rw [isAddHeader_iff] at hadd
    simp [IllegalHeader, hadd] at h

theorem decode_illegalHeader {cmd : List Word} {cp : Nat} {w : Word} (h : cmd[cp]? = some w) (hw : IllegalHeader w) :
    decode cmd cp = .illegal w := by
  obtain ⟨hinit, hfinal, hadd⟩ := illegalHeader_not_command hw
  simp [decode_header cmd cp w h, hinit, hfinal, hadd]

/-- Message bit p of the payload at `cp` is bit 31 - (p mod 32) of the stream's word `cp + p / 32` (R67). -/
theorem messageBits_payload_getElem? (cmd : List Word) (cp len p : Nat) (hp : p < len) :
    (messageBits len ((cmd.drop cp).take (payloadWords len)))[p]? =
      cmd[cp + p / 32]?.map fun v => v.getLsbD (31 - p % 32) := by
  have hword : p / 32 < payloadWords len := by unfold payloadWords; omega
  rw [messageBits_getElem? _ _ _ hp, List.getElem?_take, if_pos hword, List.getElem?_drop]

theorem messageBits_payload_length {cmd : List Word} {cp len : Nat} (h : cp + payloadWords len ≤ cmd.length) :
    (messageBits len ((cmd.drop cp).take (payloadWords len))).length = len :=
  messageBits_length _ _ (by rw [List.length_take, List.length_drop]; omega)

end Sys2Proof

namespace Sys2Proof.Proofs

open Machine

/-- Settles O32: one lemma per kind of header word, and the message bits of an ADD read off its payload words. -/
theorem decoderFollowsItsTable : Obligations.DecoderFollowsItsTable := by
  refine fun cmd cp => ⟨decode_none cmd cp, fun w hw => ⟨?_, ?_, fun hop => ?_, decode_illegalHeader hw⟩⟩
  · rintro rfl
    simp [decode_header cmd cp _ hw]
  · rintro rfl
    simp [decode_header cmd cp _ hw]
  · have hadd := (isAddHeader_iff w).mpr hop
    refine ⟨decode_addHeader_needWord hw hadd, fun hlen => ?_⟩
    have hbits := messageBits_payload_length (len := (lenField w).toNat) hlen
    refine ⟨_, decode_addHeader_command hw hadd hlen, hbits, fun p hp => ?_⟩
    have hp' := hbits ▸ hp
    have hword : cp + 1 + p / 32 < cmd.length := by rw [lenField] at hp'; omega
    refine ⟨_, List.getElem?_eq_getElem hword, ?_⟩
    rw [messageBits_payload_getElem? _ _ _ _ hp', List.getElem?_eq_getElem hword, Option.map_some]

end Sys2Proof.Proofs

/-! The pad bits of an ADD's last payload word (R68): the message does not hold them, and a step sees the stream through the
decoder alone. -/

namespace Sys2Proof.Machine

open Safety

/-- Words with the same top `r` bits agree on bit 31 - k for k below `r`. -/
theorem getLsbD_eq_of_ushiftRight_eq {v v' : Word} {r k : Nat} (h : v >>> (32 - r) = v' >>> (32 - r)) (hk : k < r)
    (hr : r ≤ 32) : v.getLsbD (31 - k) = v'.getLsbD (31 - k) := by
  have hbit := congrArg (fun x : Word => x.getLsbD (r - 1 - k)) h
  simpa [BitVec.getLsbD_ushiftRight, show 32 - r + (r - 1 - k) = 31 - k by omega] using hbit

/-- The message bits see only the top `len mod 32` bits of the last payload word. -/
theorem messageBits_set_lastWord {cmd : List Word} {cp len : Nat} {v v' : Word} (hr : len % 32 ≠ 0)
    (hv : cmd[cp + payloadWords len]? = some v) (heq : v >>> (32 - len % 32) = v' >>> (32 - len % 32)) :
    messageBits len (((cmd.set (cp + payloadWords len) v').drop (cp + 1)).take (payloadWords len)) =
      messageBits len ((cmd.drop (cp + 1)).take (payloadWords len)) := by
  have hlt := (List.getElem?_eq_some_iff.mp hv).1
  have hlen : (messageBits len ((cmd.drop (cp + 1)).take (payloadWords len))).length = len :=
    messageBits_payload_length (by omega)
  have hlen' : (messageBits len (((cmd.set (cp + payloadWords len) v').drop (cp + 1)).take (payloadWords len))).length =
      len := messageBits_payload_length (by rw [List.length_set]; omega)
  apply List.ext_getElem?
  intro p
  by_cases hp : p < len
  · rw [messageBits_payload_getElem? _ _ _ _ hp, messageBits_payload_getElem? _ _ _ _ hp]
    by_cases hlast : cp + payloadWords len = cp + 1 + p / 32
    · have htop : p % 32 < len % 32 := by unfold payloadWords at hlast; omega
      rw [← hlast, List.getElem?_set_self hlt, hv, Option.map_some, Option.map_some,
        getLsbD_eq_of_ushiftRight_eq heq htop (by omega)]
    · rw [List.getElem?_set_ne hlast]
  · rw [List.getElem?_eq_none (by omega), List.getElem?_eq_none (by omega)]

/-- The last payload word is not the header. -/
theorem getElem?_set_lastWord {cmd : List Word} {cp len : Nat} (hr : len % 32 ≠ 0) (v' : Word) :
    (cmd.set (cp + payloadWords len) v')[cp]? = cmd[cp]? :=
  List.getElem?_set_ne (by unfold payloadWords; omega)

/-- The decoder does not see the pad bits (R68). -/
theorem decode_set_lastWord {cmd : List Word} {cp : Nat} {w v v' : Word} (hw : cmd[cp]? = some w)
    (hadd : isAddHeader w = true) (hr : (lenField w).toNat % 32 ≠ 0)
    (hv : cmd[cp + payloadWords (lenField w).toNat]? = some v)
    (heq : v >>> (32 - (lenField w).toNat % 32) = v' >>> (32 - (lenField w).toNat % 32)) :
    decode (cmd.set (cp + payloadWords (lenField w).toNat) v') cp = decode cmd cp := by
  have hlt := (List.getElem?_eq_some_iff.mp hv).1
  have hw' := (getElem?_set_lastWord hr v').trans hw
  rw [decode_addHeader_command hw' hadd (by rw [List.length_set]; omega), decode_addHeader_command hw hadd (by omega),
    messageBits_set_lastWord hr hv heq]

/-! The step in each situation, that it always answers, and that an ADD below the ceiling does not fault. -/

theorem step_of_rst (s : State) (hr : s.rst = true) : step s = .next (applyRst s) := by
  simp [step, beforeDecode, hr]

theorem step_of_faulted (s : State) (hr : s.rst = false) (hf : s.fcode ≠ 0#2) : step s = .next s := by
  simp [step, beforeDecode, hr, faulted, hf]

theorem step_of_command {s : State} {i : Instr} {n : Nat} (hr : s.rst = false) (hf : s.fcode = 0#2)
    (hd : decode s.cmd s.cp = .command i n) : step s = exec i s := by
  rw [step_of_enabled s hr hf, hd]

theorem exec_answers_next (i : Instr) (s : State) : ∃ t, exec i s = .next t := by
  cases i with
  | init => exact ⟨_, rfl⟩
  | add bits => exact ⟨_, rfl⟩
  | final => exact ⟨_, rfl⟩

theorem step_answers_next (s : State) : ∃ t, step s = .next t := by
  by_cases hr : s.rst = true
  · exact ⟨_, step_of_rst s hr⟩
  rw [Bool.not_eq_true] at hr
  by_cases hf : s.fcode = 0#2
  · rw [step_of_enabled s hr hf]
    cases decode s.cmd s.cp with
    | needWord => exact ⟨_, rfl⟩
    | illegal w => exact ⟨_, rfl⟩
    | command i n => exact exec_answers_next i s
  · exact ⟨_, step_of_faulted s hr hf⟩

/-- Below the ceiling, and with the buffer as every run leaves it, an ADD keeps FCODE. -/
theorem addEffect_fcode {s : State} {bits : Bits} (hb : BufferOk s) (hlen : s.totLen.toNat + bits.length < 2 ^ 64) :
    (addEffect bits s).fcode = s.fcode := by
  rcases addEffect_cases bits s with ⟨hover, -⟩ | ⟨-, -, he⟩ | ⟨c, rest, -, -, -, he⟩ | ⟨-, hge, hnone, -⟩
  · rw [overflows_iff] at hover
    omega
  · simp [he]
  · simp [he]
  · rw [addBlocks_spec s bits hb hge] at hnone
    cases hnone

/-- An ADD whose payload is all there and which stays below the ceiling does not fault. -/
theorem step_add_fcode {s t : State} {w : Word} (hr : s.rst = false) (hf : s.fcode = 0#2) (hb : BufferOk s)
    (hw : s.cmd[s.cp]? = some w) (hadd : isAddHeader w = true)
    (hpay : s.cp + 1 + payloadWords (lenField w).toNat ≤ s.cmd.length)
    (hlen : s.totLen.toNat + (lenField w).toNat < 2 ^ 64) (h : step s = .next t) : t.fcode = 0#2 := by
  rw [step_of_command hr hf (decode_addHeader_command hw hadd hpay), exec_add, whenEnabled_of_ok _ _ hf] at h
  obtain rfl := Host.Outcome.next.inj h
  rw [addEffect_fcode hb (by rwa [messageBits_payload_length hpay]), hf]

/-! A command and a step over another stream: `{ s with cmd := ws }` is the state `s` given the stream `ws`. -/

theorem whenEnabled_withCmd (effect : State → State) (s : State) (ws : List Word)
    (h : effect { s with cmd := ws } = { effect s with cmd := ws }) :
    whenEnabled effect { s with cmd := ws } = { whenEnabled effect s with cmd := ws } := by
  by_cases hf : s.fcode = 0#2
  · rw [whenEnabled_of_ok _ _ hf, whenEnabled_of_ok effect { s with cmd := ws } hf, h]
  · rw [whenEnabled_of_faulted _ _ hf, whenEnabled_of_faulted effect { s with cmd := ws } hf]

theorem addEffect_withCmd (bits : Bits) (s : State) (ws : List Word) :
    addEffect bits { s with cmd := ws } = { addEffect bits s with cmd := ws } := by
  have hblocks : addBlocks { s with cmd := ws } bits = addBlocks s bits := rfl
  simp only [addEffect, hblocks]
  split
  · rfl
  · split
    · rfl
    · split <;> rfl

theorem finalEffect_withCmd (s : State) (ws : List Word) :
    finalEffect { s with cmd := ws } = { finalEffect s with cmd := ws } := by
  have hchain : finalChain { s with cmd := ws } = finalChain s := rfl
  simp only [finalEffect, hchain]
  split <;> rfl

/-- A command reads nothing of the stream and leaves it as it is. -/
theorem exec_withCmd {i : Instr} {s t : State} (ws : List Word) (h : exec i s = .next t) :
    exec i { s with cmd := ws } = .next { t with cmd := ws } := by
  cases i with
  | init =>
    obtain rfl := Host.Outcome.next.inj h
    exact congrArg Host.Outcome.next (whenEnabled_withCmd initEffect s ws rfl)
  | add bits =>
    obtain rfl := Host.Outcome.next.inj h
    exact congrArg Host.Outcome.next (whenEnabled_withCmd (addEffect bits) s ws (addEffect_withCmd bits s ws))
  | final =>
    obtain rfl := Host.Outcome.next.inj h
    exact congrArg Host.Outcome.next (whenEnabled_withCmd finalEffect s ws (finalEffect_withCmd s ws))

/-- The overflow check sees the stream only through the header word. -/
theorem headerOverflows_withCmd {s : State} {ws : List Word} {w : Word} (h : s.cmd[s.cp]? = some w)
    (h' : ws[s.cp]? = some w) : headerOverflows { s with cmd := ws } = headerOverflows s := by
  rw [headerOverflows_of_header s w h, headerOverflows_of_header { s with cmd := ws } w h']

theorem awaitWords_withCmd {s : State} {ws : List Word}
    (hover : headerOverflows { s with cmd := ws } = headerOverflows s) :
    awaitWords { s with cmd := ws } = { awaitWords s with cmd := ws } := by
  simp only [awaitWords, hover]
  split <;> rfl

/-- A step sees the stream only through the decoder, the overflow check on the header and where RST leaves cp. -/
theorem step_withCmd {s t : State} {ws : List Word} (hdec : decode ws s.cp = decode s.cmd s.cp)
    (hover : headerOverflows { s with cmd := ws } = headerOverflows s)
    (hcp : resetCp { s with cmd := ws } = resetCp s) (h : step s = .next t) :
    step { s with cmd := ws } = .next { t with cmd := ws } := by
  rcases step_cases h with ⟨hr, rfl⟩ | ⟨hr, hf, rfl⟩ | ⟨hr, hf, hd, rfl⟩ | ⟨w, hr, hf, hd, rfl⟩ | ⟨i, n, hr, hf, hd, hx⟩
  · rw [step_of_rst { s with cmd := ws } hr, applyRst, hcp]
    rfl
  · exact step_of_faulted { t with cmd := ws } hr hf
  · simp only [step_of_enabled { s with cmd := ws } hr hf, hdec, hd, awaitWords_withCmd hover]
  · simp only [step_of_enabled { s with cmd := ws } hr hf, hdec, hd]
    rfl
  · simp only [step_of_enabled { s with cmd := ws } hr hf, hdec, hd]
    exact exec_withCmd ws hx

/-- Where RST leaves cp depends on the stream's length and on whether CORE is held. -/
theorem resetCp_withCmd {s : State} {ws : List Word} (hdec : decode ws s.cp = decode s.cmd s.cp)
    (hover : headerOverflows { s with cmd := ws } = headerOverflows s) (hlen : ws.length = s.cmd.length) :
    resetCp { s with cmd := ws } = resetCp s := by
  have hheld : held { s with cmd := ws } = held s := by simp only [held, faulted, hdec, hover]
  simp only [resetCp, hheld, hlen]

end Sys2Proof.Machine

namespace Sys2Proof.Proofs

open Machine

/-- Settles O33: the decoder does not see the pad bits, and a step sees the stream through the decoder alone. -/
theorem padBitsAreIgnored : Obligations.PadBitsAreIgnored := by
  rintro s _ w v v' hw hop rfl hr hv heq
  have hadd := (isAddHeader_iff w).mpr hop
  have hdec := decode_set_lastWord hw hadd hr hv heq
  have hover := headerOverflows_withCmd hw ((getElem?_set_lastWord hr v').trans hw)
  obtain ⟨t, ht⟩ := step_answers_next s
  refine ⟨hdec, t, ht, step_withCmd hdec hover (resetCp_withCmd hdec hover List.length_set) ht, ?_⟩
  intro hrst hf hb hlen
  have hlast := (List.getElem?_eq_some_iff.mp hv).1
  exact step_add_fcode hrst hf hb hw hadd (by unfold payloadWords; rw [lenField]; omega) hlen ht

end Sys2Proof.Proofs

/-! The length of a command (R73): fixed by its header, and what cp advances by. -/

namespace Sys2Proof.Machine

theorem decode_command_next {cmd : List Word} {cp n : Nat} {i : Instr} (h : decode cmd cp = .command i n) :
    n = cp + (encode i).length := by
  rcases decode_command_cases h with ⟨rfl, -, rfl⟩ | ⟨rfl, -, rfl⟩ | ⟨w, -, -, rfl, hlen, rfl⟩
  · rfl
  · rfl
  · rw [encode, List.length_cons, packWords_length, messageBits_payload_length hlen]
    omega

/-- The length a command takes in the stream is the one its header says (R73). -/
theorem decode_command_headerWords {cmd : List Word} {cp n : Nat} {i : Instr} {w : Word} (hw : cmd[cp]? = some w)
    (h : decode cmd cp = .command i n) : n = cp + headerWords w := by
  rcases decode_command_cases h with ⟨-, hc, rfl⟩ | ⟨-, hc, rfl⟩ | ⟨w', hc, hadd, rfl, -, -⟩
  · cases hw.symm.trans hc
    rfl
  · cases hw.symm.trans hc
    rfl
  · cases hw.symm.trans hc
    rw [headerWords, if_pos hadd]
    omega

/-- A command that completes moves cp past its own words; one that faults consumes its header alone (R73). -/
theorem exec_cp {i : Instr} {s t : State} (hf : s.fcode = 0#2) (h : exec i s = .next t) :
    (t.fcode = 0#2 ∧ t.cp = s.cp + (encode i).length) ∨ (t.fcode ≠ 0#2 ∧ t.cp = s.cp + 1) := by
  cases i with
  | init =>
    obtain rfl := Host.Outcome.next.inj h
    rw [whenEnabled_of_ok _ _ hf]
    exact .inl ⟨hf, rfl⟩
  | add bits =>
    obtain rfl := Host.Outcome.next.inj h
    rw [whenEnabled_of_ok _ _ hf]
    have hlen : (encode (.add bits)).length = 1 + payloadWords bits.length := by simp [encode]; omega
    rcases addEffect_cases bits s with ⟨-, he⟩ | ⟨-, -, he⟩ | ⟨c, rest, -, -, -, he⟩ | ⟨-, -, -, he⟩
    · exact .inr (by simp [he, lengthOverflow])
    · exact .inl (by simp [he, hf, hlen])
    · exact .inl (by simp [he, hf, hlen])
    · exact .inr (by simp [he, blockSizeInvariant])
  | final =>
    obtain rfl := Host.Outcome.next.inj h
    obtain ⟨c, -, he⟩ := finalEffect_cases s
    rw [whenEnabled_of_ok _ _ hf, he]
    exact .inl ⟨hf, rfl⟩

/-- A step that raises a fault has consumed one word. -/
theorem step_cp_of_fault {s t : State} (hf : s.fcode = 0#2) (h : step s = .next t) (ht : t.fcode ≠ 0#2) :
    t.cp = s.cp + 1 := by
  rcases step_cases h with ⟨-, rfl⟩ | ⟨-, hs, -⟩ | ⟨-, -, -, rfl⟩ | ⟨w, -, -, -, rfl⟩ | ⟨i, n, -, -, -, hx⟩
  · exact absurd rfl ht
  · exact absurd hf hs
  · unfold awaitWords at ht ⊢
    split
    · rfl
    · rename_i hover
      rw [if_neg hover] at ht
      exact absurd hf ht
  · rfl
  · rcases exec_cp hf hx with ⟨hok, -⟩ | ⟨-, hcp⟩
    · exact absurd hok ht
    · exact hcp

end Sys2Proof.Machine

namespace Sys2Proof.Proofs

open Machine

/-- Settles O34: the decoder's `next` is cp plus the length the header says, a command that completes moves cp by the length
of its encoding, and a step that faults by one. -/
theorem commandLengthFromHeader : Obligations.CommandLengthFromHeader := by
  refine fun s w hr hf hw => ⟨fun i n hd => ⟨?_, ?_⟩, fun t ht hfault => step_cp_of_fault hf ht hfault⟩
  · have hn := decode_command_headerWords hw hd
    simpa only [headerWords, isAddHeader_iff, payloadWords, lenField] using hn
  · obtain ⟨t, hx⟩ := exec_answers_next i s
    refine ⟨t, (step_of_command hr hf hd).trans hx, fun hok => ?_⟩
    rcases exec_cp hf hx with ⟨-, hcp⟩ | ⟨hne, -⟩
    · rw [hcp, ← decode_command_next hd]
    · exact absurd hok hne

end Sys2Proof.Proofs

/-! The compression core, function by function: the bits of `rotl` (R80) and of Ch, Parity and Maj (R81 to R83), the stage
table by range (R84), the words of the schedule (R86, R87) and the working variables between two rounds (R91). -/

namespace Sys2Proof.Machine

theorem rotl_of_mod_eq_zero (x : Word) {n : Nat} (h : n % 32 = 0) : rotl x n = x := if_pos h

theorem rotl_of_mod_ne_zero (x : Word) {n : Nat} (h : n % 32 ≠ 0) :
    rotl x n = (x <<< (n % 32)) ||| (x >>> (32 - n % 32)) := if_neg h

/-- Bits below the amount come from the top of the word, the others from below them (R80). -/
theorem getLsbD_rotl (x : Word) (n : Nat) {k : Nat} (hk : k < 32) :
    (rotl x n).getLsbD k = x.getLsbD ((k + (32 - n % 32)) % 32) := by
  by_cases hn : n % 32 = 0
  · rw [rotl_of_mod_eq_zero x hn, hn, show (k + (32 - 0)) % 32 = k by omega]
  · rw [rotl_of_mod_ne_zero x hn, BitVec.getLsbD_or, BitVec.getLsbD_shiftLeft, BitVec.getLsbD_ushiftRight]
    by_cases hlow : k < n % 32
    · rw [show (k + (32 - n % 32)) % 32 = 32 - n % 32 + k by omega]
      simp [hlow]
    · have hout : x.getLsbD (32 - n % 32 + k) = false := BitVec.getLsbD_of_ge _ _ (by omega)
      rw [show (k + (32 - n % 32)) % 32 = k - n % 32 by omega, hout]
      simp [hlow, hk]

theorem getLsbD_ch (b c d : Word) {k : Nat} (hk : k < 32) :
    (ch b c d).getLsbD k = if b.getLsbD k then c.getLsbD k else d.getLsbD k := by
  simp only [ch, BitVec.getLsbD_or, BitVec.getLsbD_and, BitVec.getLsbD_not, hk]
  cases b.getLsbD k <;> simp

theorem getLsbD_parity (b c d : Word) (k : Nat) :
    (parity b c d).getLsbD k =
      decide (((b.getLsbD k).toNat + (c.getLsbD k).toNat + (d.getLsbD k).toNat) % 2 = 1) := by
  simp only [parity, BitVec.getLsbD_xor]
  cases b.getLsbD k <;> cases c.getLsbD k <;> cases d.getLsbD k <;> rfl

theorem getLsbD_maj (b c d : Word) (k : Nat) :
    (maj b c d).getLsbD k = decide (2 ≤ (b.getLsbD k).toNat + (c.getLsbD k).toNat + (d.getLsbD k).toNat) := by
  simp only [maj, BitVec.getLsbD_or, BitVec.getLsbD_and]
  cases b.getLsbD k <;> cases c.getLsbD k <;> cases d.getLsbD k <;> rfl

/-! The stage table: the ranges are tested in order, so each lemma refutes the tests before its own. -/

theorem stage_ch {i : Nat} (h : i < 20) (b c d : Word) : roundF i b c d = ch b c d ∧ roundK i = 0x5A827999#32 :=
  ⟨if_pos h, if_pos h⟩

theorem stage_parity {i : Nat} (h : 20 ≤ i) (h' : i < 40) (b c d : Word) :
    roundF i b c d = parity b c d ∧ roundK i = 0x6ED9EBA1#32 := by
  have h₂₀ : ¬ i < 20 := by omega
  simp only [roundF, roundK, h₂₀, h', if_true, if_false, and_self]

theorem stage_maj {i : Nat} (h : 40 ≤ i) (h' : i < 60) (b c d : Word) :
    roundF i b c d = maj b c d ∧ roundK i = 0x8F1BBCDC#32 := by
  have h₂₀ : ¬ i < 20 := by omega
  have h₄₀ : ¬ i < 40 := by omega
  simp only [roundF, roundK, h₂₀, h₄₀, h', if_true, if_false, and_self]

theorem stage_lastParity {i : Nat} (h : 60 ≤ i) (b c d : Word) :
    roundF i b c d = parity b c d ∧ roundK i = 0xCA62C1D6#32 := by
  have h₂₀ : ¬ i < 20 := by omega
  have h₄₀ : ¬ i < 40 := by omega
  have h₆₀ : ¬ i < 60 := by omega
  simp only [roundF, roundK, h₂₀, h₄₀, h₆₀, if_false, and_self]

/-! The schedule (R86, R87). -/

@[simp] theorem schedule_length (m : List Word) : (schedule m).length = m.length + 64 :=
  extendSchedule_length _ _

theorem schedule_getElem?_block (m : List Word) {t : Nat} (ht : t < m.length) : (schedule m)[t]? = m[t]? :=
  extendSchedule_getElem?_old _ _ _ ht

/-- The schedule word after the first t words, from four of them. -/
theorem scheduleWord_take {w : List Word} {t : Nat} (h : 16 ≤ t) (h' : t ≤ w.length) :
    scheduleWord (w.take t) = rotl (w[t - 3] ^^^ w[t - 8] ^^^ w[t - 14] ^^^ w[t - 16]) 1 := by
  have hlen : (w.take t).length = t := List.length_take_of_le h'
  have hword (j : Nat) (hj : j < t) : (w.take t).getD j 0#32 = w[j] := by
    rw [List.getD_eq_getElem _ _ (by omega), List.getElem_take]
  rw [scheduleWord, hlen, hword _ (by omega), hword _ (by omega), hword _ (by omega), hword _ (by omega)]

/-- The recurrence of R87, for any block of at least 16 words. -/
theorem schedule_getElem?_recurrence {m : List Word} {t : Nat} (hm : 16 ≤ m.length) (h : m.length ≤ t)
    (h' : t < (schedule m).length) :
    (schedule m)[t]? = some (rotl ((schedule m)[t - 3] ^^^ (schedule m)[t - 8] ^^^ (schedule m)[t - 14]
      ^^^ (schedule m)[t - 16]) 1) := by
  have hlt : t < m.length + 64 := by rwa [schedule_length] at h'
  rw [← scheduleWord_take (by omega) (by omega)]
  exact extendSchedule_getElem?_new _ _ _ h hlt

/-! The rounds (R91). -/

theorem rounds_take_succ {ws : List Word} {i : Nat} (hi : i < ws.length) (v : Working) :
    rounds 0 (ws.take (i + 1)) v = roundStep i ws[i] (rounds 0 (ws.take i) v) := by
  rw [← List.take_append_getElem hi, rounds_append, List.length_take_of_le (by omega), Nat.zero_add, rounds, rounds]

/-- The working variables of COMPRESS before round i: those after the rounds of the first i schedule words. -/
def workingBefore (s : Chain) (m : List Word) (i : Nat) : Working :=
  rounds 0 ((schedule m).take i) (Working.start s)

theorem workingBefore_zero (s : Chain) (m : List Word) : workingBefore s m 0 = Working.start s := rfl

theorem workingBefore_succ (s : Chain) {m : List Word} {i : Nat} (hi : i < (schedule m).length) :
    workingBefore s m (i + 1) = roundStep i (schedule m)[i] (workingBefore s m i) :=
  rounds_take_succ hi _

/-- After its last schedule word, COMPRESS adds the working variables to the state it was given (R93). -/
theorem compress_eq_addWorking (s : Chain) (m : List Word) :
    compress s m = addWorking s (workingBefore s m (schedule m).length) := by
  rw [compress, workingBefore, List.take_length]

end Sys2Proof.Machine

namespace Sys2Proof.Proofs

open Machine

/-- Settles O40: bit by bit, on each side of the bits that wrap round. -/
theorem rotlMovesEveryBit : Obligations.RotlMovesEveryBit :=
  fun x n _ hk => getLsbD_rotl x n hk

/-- Settles O41: one truth table per function. -/
theorem roundFunctionsBitByBit : Obligations.RoundFunctionsBitByBit :=
  fun b c d k hk => ⟨getLsbD_ch b c d hk, getLsbD_parity b c d k, getLsbD_maj b c d k⟩

/-- Settles O42: one lemma per range. -/
theorem stageTable : Obligations.StageTable :=
  fun _ b c d => ⟨fun h => stage_ch h b c d, fun h h' => stage_parity h h' b c d, fun h h' => stage_maj h h' b c d,
    fun h _ => stage_lastParity h b c d⟩

/-- Settles O43: the four words named are the schedule's own, and the recurrence is R87's. -/
theorem scheduleRecurrence : Obligations.ScheduleRecurrence := by
  intro m hm
  have hlen : (schedule m).length = 80 := by rw [schedule_length, hm]
  refine ⟨hlen, fun t ht => schedule_getElem?_block m (by omega), fun t h h' => ?_⟩
  exact ⟨_, _, _, _, List.getElem?_eq_getElem (by omega), List.getElem?_eq_getElem (by omega),
    List.getElem?_eq_getElem (by omega), List.getElem?_eq_getElem (by omega),
    schedule_getElem?_recurrence (by omega) (by omega) (by omega)⟩

/-- Settles O44: the sequence is the working variables before each round, of which the one after the last round is
index 80. -/
theorem compressIsEightyRounds : Obligations.CompressIsEightyRounds := by
  intro s m hm
  have hlen : (schedule m).length = 80 := by rw [schedule_length, hm]
  refine ⟨workingBefore s m, workingBefore_zero s m, fun i hi => ?_, ?_⟩
  · have hi' : i < (schedule m).length := by omega
    exact ⟨_, List.getElem?_eq_getElem hi', workingBefore_succ s hi'⟩
  · rw [compress_eq_addWorking, hlen, addWorking]

end Sys2Proof.Proofs

/-! The commands with no fault pending (R100), the three outcomes of an ADD whose buffer is in order (R105), and what they
leave of TOTLEN (R102) and of FCODE (R121). -/

namespace Sys2Proof.Machine

open Safety

theorem exec_init_of_ok {s : State} (hf : s.fcode = 0#2) : exec .init s = .next (initEffect s) :=
  congrArg Host.Outcome.next (whenEnabled_of_ok initEffect s hf)

theorem exec_add_of_ok {s : State} (hf : s.fcode = 0#2) (bits : Bits) : exec (.add bits) s = .next (addEffect bits s) :=
  congrArg Host.Outcome.next (whenEnabled_of_ok (addEffect bits) s hf)

theorem exec_final_of_ok {s : State} (hf : s.fcode = 0#2) : exec .final s = .next (finalEffect s) :=
  congrArg Host.Outcome.next (whenEnabled_of_ok finalEffect s hf)

theorem addEffect_of_overflow {s : State} {bits : Bits} (hover : 2 ^ 64 ≤ s.totLen.toNat + bits.length) :
    addEffect bits s = raiseFault lengthOverflow s :=
  if_pos ((overflows_iff _ _).mpr hover)

theorem addEffect_of_short {s : State} {bits : Bits} (hlen : s.totLen.toNat + bits.length < 2 ^ 64)
    (hshort : s.bufLen.toNat + bits.length < 512) :
    addEffect bits s = advance (1 + payloadWords bits.length) (appendBits bits (countBits bits.length s)) := by
  have hover : ¬overflows s.totLen bits.length = true := by rw [overflows_iff]; omega
  rw [addEffect, if_neg hover, if_pos hshort]

theorem addEffect_of_blocks {s : State} {bits : Bits} (hb : BufferOk s) (hlen : s.totLen.toNat + bits.length < 2 ^ 64)
    (hge : 512 ≤ s.bufLen.toNat + bits.length) :
    addEffect bits s =
      advance (1 + payloadWords bits.length)
        (storeBlocks (chainOver (compress s.h (words (firstBlock s bits))) (afterFill s bits))
          (remainder (afterFill s bits)) (countBits bits.length s)) := by
  have hover : ¬overflows s.totLen bits.length = true := by rw [overflows_iff]; omega
  rw [addEffect, if_neg hover, if_neg (by omega), addBlocks_fill s bits hb hge]

/-- Both paths of an ADD count its bits, and the sum does not wrap (R102). -/
theorem addEffect_totLen {s : State} {bits : Bits} (hb : BufferOk s) (hlen : s.totLen.toNat + bits.length < 2 ^ 64) :
    (addEffect bits s).totLen.toNat = s.totLen.toNat + bits.length := by
  have hsum : (s.totLen + BitVec.ofNat 64 bits.length).toNat = s.totLen.toNat + bits.length := by
    rw [BitVec.toNat_add, BitVec.toNat_ofNat]
    omega
  by_cases hshort : s.bufLen.toNat + bits.length < 512
  · rw [addEffect_of_short hlen hshort]
    exact hsum
  · rw [addEffect_of_blocks hb hlen (by omega)]
    exact hsum

/-- With a buffer in order, an ADD faults at the length ceiling and nowhere else (R121). -/
theorem addEffect_faults_iff {s : State} {bits : Bits} (hf : s.fcode = 0#2) (hb : BufferOk s) :
    (addEffect bits s).fcode ≠ 0#2 ↔ 2 ^ 64 ≤ s.totLen.toNat + bits.length := by
  constructor
  · intro hfault
    by_contra hbelow
    exact hfault ((addEffect_fcode hb (Nat.lt_of_not_le hbelow)).trans hf)
  · intro hover
    rw [addEffect_of_overflow hover, raiseFault_fcode]
    decide

/-- Where the fill of an ADD ends: between 1 and 512 bits, all of them there on the block path (R104). -/
theorem fillBits_bounds {s : State} {bits : Bits} (hb : BufferOk s) (hge : 512 ≤ s.bufLen.toNat + bits.length) :
    1 ≤ fillBits s ∧ fillBits s ≤ 512 ∧ fillBits s ≤ bits.length := by
  obtain ⟨hlenEq, hlt⟩ := hb
  unfold fillBits
  omega

theorem remainder_length_lt (m : Bits) : (remainder m).length < 512 := by
  rw [remainder_length]
  omega

end Sys2Proof.Machine

namespace Sys2Proof.Proofs

open Machine

/-- Settles O4: INIT is `construct`, then one word consumed. -/
theorem initConstructs : Obligations.InitConstructs :=
  fun _ hf => exec_init_of_ok hf

/-- Settles O5: below the ceiling both paths count, at it the fault keeps TOTLEN. -/
theorem addCountsEveryBit : Obligations.AddCountsEveryBit := by
  intro s bits hf hb
  refine ⟨addEffect bits s, exec_add_of_ok hf bits, addEffect_totLen hb, fun hover => ?_⟩
  rw [addEffect_of_overflow hover, raiseFault_totLen]

/-- Settles O6: the short path's equation, field by field. -/
theorem addShortPath : Obligations.AddShortPath := by
  intro s bits hf hlen hshort
  rw [exec_add_of_ok hf, addEffect_of_short hlen hshort, Nat.add_assoc]
  rfl

/-- Settles O7: the block path's equation, the fill being k bits. -/
theorem addBlockPath : Obligations.AddBlockPath := by
  rintro s bits _ hf hb hlen hge rfl
  obtain ⟨hpos, hle, hthere⟩ := fillBits_bounds hb hge
  refine ⟨hpos, hle, hthere, remainder_length_lt _, ?_⟩
  rw [exec_add_of_ok hf, addEffect_of_blocks hb hlen hge, Nat.add_assoc]
  rfl

end Sys2Proof.Proofs

/-! The padded buffer (R108, R109) and what a FINAL makes of it (R110, R112). -/

namespace Sys2Proof.Machine

open Safety

/-- No smaller number of zeros brings the length to 448 modulo 512 (R108). -/
theorem padZeros_least {l z : Nat} (h : (l + 1 + z) % 512 = 448) : padZeros l ≤ z := by
  obtain ⟨hmod, hlt⟩ := padZeros_spec l
  omega

theorem pad_length_of_le (b : Bits) (t : BitVec 64) (h : b.length ≤ 447) : (pad b t).length = 512 := by
  rw [pad_length, padZeros_of_le _ h]
  omega

theorem pad_length_of_ge (b : Bits) (t : BitVec 64) (h : 448 ≤ b.length) (h' : b.length < 512) :
    (pad b t).length = 1024 := by
  rw [pad_length, padZeros_of_ge _ h h']
  omega

theorem chainOver_one_block (c : Chain) {m : Bits} (h : m.length = 512) : chainOver c m = compress c (words m) := by
  rw [chainOver_of_ge _ _ (by omega), List.take_of_length_le (by omega), chainOver_of_lt _ _ (by simp; omega)]

theorem chainOver_two_blocks (c : Chain) {m : Bits} (h : m.length = 1024) :
    chainOver c m = compress (compress c (words (m.take 512))) (words (m.drop 512)) := by
  rw [chainOver_of_ge _ _ (by omega), chainOver_one_block _ (by simp; omega)]

/-- The compressions of a padded buffer, one or two as its length says (R110). -/
theorem chainOver_pad (c : Chain) {b : Bits} (t : BitVec 64) (h : b.length < 512) :
    chainOver c (pad b t) =
      if b.length ≤ 447 then compress c (words (pad b t))
      else compress (compress c (words ((pad b t).take 512))) (words ((pad b t).drop 512)) := by
  split_ifs with hle
  · exact chainOver_one_block c (pad_length_of_le b t hle)
  · exact chainOver_two_blocks c (pad_length_of_ge b t (by omega) h)

/-- FINAL with a buffer shorter than a block emits the chain over its padding and starts afresh (R110). -/
theorem finalEffect_of_lt {s : State} (h : s.buf.length < 512) :
    finalEffect s = advance 1 (construct (pushDigest (chainOver s.h (pad s.buf s.totLen)) s)) := by
  rw [finalEffect, finalChain_spec s h]

theorem engine_construct (s : State) : engine (construct s) = freshEngine := rfl

theorem engine_advance (n : Nat) (s : State) : engine (advance n s) = engine s := rfl

theorem engine_initEffect (s : State) : engine (initEffect s) = freshEngine := by
  rw [initEffect, engine_advance, engine_construct]

/-- FINAL leaves the fresh engine from every state, the unreachable ones included (R112). -/
theorem engine_finalEffect (s : State) : engine (finalEffect s) = freshEngine := by
  obtain ⟨c, -, he⟩ := finalEffect_cases s
  rw [he, engine_advance, engine_construct]

theorem engine_applyRst (s : State) : engine (applyRst s) = freshEngine := rfl

theorem finalEffect_fcode (s : State) : (finalEffect s).fcode = s.fcode := by
  obtain ⟨c, -, he⟩ := finalEffect_cases s
  simp [he]

end Sys2Proof.Machine

namespace Sys2Proof.Proofs

open Machine

/-- Settles O11: z is `padZeros` of the buffer's length. -/
theorem padShape : Obligations.PadShape := by
  intro b t hb
  exact ⟨padZeros b.length, ⟨be64 t, rfl, be64_length t, be64_getElem? t⟩, (padZeros_spec _).1,
    fun _ hz => padZeros_least hz, padZeros_of_le _, fun h => padZeros_of_ge _ h hb⟩

/-- Settles O13: the chain FINAL emits is the one or two compressions of the padded buffer. -/
theorem finalEmitsDigest : Obligations.FinalEmitsDigest := by
  rintro s _ hf hb rfl
  rw [← chainOver_pad s.h s.totLen hb.len_lt, exec_final_of_ok hf, finalEffect_of_lt hb.len_lt]
  rfl

/-- Settles O14: each of the three leaves the fresh engine. -/
theorem finalReturnsToConstruction : Obligations.FinalReturnsToConstruction := by
  intro s hf
  have hfinal := engine_finalEffect s
  exact ⟨finalEffect s, initEffect s, applyRst (requestRst s), exec_final_of_ok hf, exec_init_of_ok hf,
    step_of_rst _ (requestRst_rst s), hfinal.trans (engine_initEffect s).symm,
    hfinal.trans (engine_applyRst _).symm, hfinal⟩

/-- Settles O16: INIT and FINAL keep FCODE, and an ADD writes it at the ceiling alone. -/
theorem onlyAddFaultsAndOnlyAtTheCeiling : Obligations.OnlyAddFaultsAndOnlyAtTheCeiling :=
  ⟨fun s hf => ⟨initEffect s, exec_init_of_ok hf, hf⟩,
    fun s hf => ⟨finalEffect s, exec_final_of_ok hf, (finalEffect_fcode s).trans hf⟩,
    fun s bits hf hb => ⟨addEffect bits s, exec_add_of_ok hf bits, addEffect_faults_iff hf hb⟩⟩

end Sys2Proof.Proofs

/-! Faults: the steps that raise one (R132, R133), that each is precise (R139), and the fault state (R140). -/

namespace Sys2Proof.Machine

theorem step_of_needWord {s : State} (hr : s.rst = false) (hf : s.fcode = 0#2) (hd : decode s.cmd s.cp = .needWord) :
    step s = .next (awaitWords s) := by
  rw [step_of_enabled s hr hf, hd]

theorem step_of_illegal {s : State} {w : Word} (hr : s.rst = false) (hf : s.fcode = 0#2)
    (hd : decode s.cmd s.cp = .illegal w) : step s = .next (rejectHeader s) := by
  rw [step_of_enabled s hr hf, hd]

theorem awaitWords_of_overflow {s : State} (h : headerOverflows s = true) :
    awaitWords s = raiseFault lengthOverflow s := if_pos h

theorem awaitWords_of_below {s : State} (h : headerOverflows s = false) : awaitWords s = s := by
  rw [awaitWords, h, if_neg Bool.false_ne_true]

theorem exec_add_of_overflow {s : State} {bits : Bits} (hf : s.fcode = 0#2)
    (hover : 2 ^ 64 ≤ s.totLen.toNat + bits.length) : exec (.add bits) s = .next (raiseFault lengthOverflow s) := by
  rw [exec_add_of_ok hf, addEffect_of_overflow hover]

/-- An ADD header at the ceiling faults with its payload there, where the ADD checks, and without it, where the wait does
(R74). -/
theorem step_of_overflowingHeader {s : State} {w : Word} (hr : s.rst = false) (hf : s.fcode = 0#2)
    (hw : s.cmd[s.cp]? = some w) (hadd : isAddHeader w = true)
    (hover : 2 ^ 64 ≤ s.totLen.toNat + (lenField w).toNat) : step s = .next (raiseFault lengthOverflow s) := by
  by_cases hpay : s.cp + 1 + payloadWords (lenField w).toNat ≤ s.cmd.length
  · rw [step_of_command hr hf (decode_addHeader_command hw hadd hpay)]
    exact exec_add_of_overflow hf (by rwa [messageBits_payload_length hpay])
  · have hheader : headerOverflows s = true := by
      rw [headerOverflows_of_header s w hw, hadd, (overflows_iff _ _).mpr hover, Bool.and_self]
    rw [step_of_needWord hr hf (decode_addHeader_needWord hw hadd (Nat.lt_of_not_le hpay)),
      awaitWords_of_overflow hheader]

/-- An ADD that does not keep FCODE has raised a fault and done nothing else, in the unreachable states too (R139). -/
theorem addEffect_precise {s : State} {bits : Bits} (h : (addEffect bits s).fcode ≠ s.fcode) :
    addEffect bits s = raiseFault (addEffect bits s).fcode s := by
  rcases addEffect_cases bits s with ⟨-, he⟩ | ⟨-, -, he⟩ | ⟨c, rest, -, -, -, he⟩ | ⟨-, -, -, he⟩
  · rw [he, raiseFault_fcode]
  · exact absurd (congrArg State.fcode he) h
  · exact absurd (congrArg State.fcode he) h
  · rw [he, raiseFault_fcode]

theorem exec_precise {i : Instr} {s t : State} (hf : s.fcode = 0#2) (h : exec i s = .next t) (ht : t.fcode ≠ 0#2) :
    t = raiseFault t.fcode s := by
  cases i with
  | init =>
    obtain rfl := Host.Outcome.next.inj ((exec_init_of_ok hf).symm.trans h)
    exact absurd hf ht
  | add bits =>
    obtain rfl := Host.Outcome.next.inj ((exec_add_of_ok hf bits).symm.trans h)
    exact addEffect_precise (hf ▸ ht)
  | final =>
    obtain rfl := Host.Outcome.next.inj ((exec_final_of_ok hf).symm.trans h)
    exact absurd ((finalEffect_fcode s).trans hf) ht

/-- A step that leaves FCODE not 0 is `raiseFault` with that code (R139). -/
theorem step_precise {s t : State} (hf : s.fcode = 0#2) (h : step s = .next t) (ht : t.fcode ≠ 0#2) :
    t = raiseFault t.fcode s := by
  rcases step_cases h with ⟨-, rfl⟩ | ⟨-, hs, -⟩ | ⟨-, -, -, rfl⟩ | ⟨w, -, -, -, rfl⟩ | ⟨i, n, -, -, -, hx⟩
  · exact absurd (applyRst_fcode s) ht
  · exact absurd hf hs
  · cases hover : headerOverflows s with
    | true => rw [awaitWords_of_overflow hover, raiseFault_fcode]
    | false =>
      rw [awaitWords_of_below hover] at ht
      exact absurd hf ht
  · rw [rejectHeader, raiseFault_fcode]
  · exact exec_precise hf hx ht

/-- In the fault state no command has an effect, INIT included (R140). -/
theorem exec_of_faulted {s : State} (hf : s.fcode ≠ 0#2) (i : Instr) : exec i s = .next s := by
  cases i with
  | init => rw [exec_init, whenEnabled_of_faulted _ s hf]
  | add bits => rw [exec_add, whenEnabled_of_faulted _ s hf]
  | final => rw [exec_final, whenEnabled_of_faulted _ s hf]

theorem cmdReady_of_faulted {s : State} (hr : s.rst = false) (hf : s.fcode ≠ 0#2) : cmdReady s = false :=
  Bool.eq_false_iff.mpr fun hready => hf ((cmdReady_of_rst_low s hr).mp hready)

end Sys2Proof.Machine

namespace Sys2Proof.Proofs

open Machine

/-- Settles O10: the header's step faults with and without the payload, the ADD itself checks first, and below the ceiling it
keeps FCODE. -/
theorem addOverflowFaults : Obligations.AddOverflowFaults :=
  ⟨fun _ w hr hf hw hop => step_of_overflowingHeader hr hf hw ((isAddHeader_iff w).mpr hop),
    fun _ _ hf => exec_add_of_overflow hf,
    fun s bits hf hb hlen => ⟨addEffect bits s, exec_add_of_ok hf bits, (addEffect_fcode hb hlen).trans hf⟩⟩

/-- Settles O24: the decoder rejects the word, and the step raises IllegalCommand. -/
theorem illegalHeaderFaults : Obligations.IllegalHeaderFaults :=
  fun _ _ hr hf hw hill => step_of_illegal hr hf (decode_illegalHeader hw hill)

/-- Settles O27: whatever raised the fault, the step is `raiseFault`. -/
theorem faultsArePrecise : Obligations.FaultsArePrecise :=
  fun _ _ hf h ht => step_precise hf h ht

/-- Settles O26: the step stops before decoding, and every command is executed through `whenEnabled`. -/
theorem faultStateIsSticky : Obligations.FaultStateIsSticky :=
  fun s hf =>
    ⟨fun hr => ⟨step_of_faulted s hr hf, cmdReady_of_faulted hr hf, fcodeOut_of_rst_low s hr⟩, exec_of_faulted hf⟩

end Sys2Proof.Proofs

/-! Reset: RST answers the construction state from any state, and alone leaves the fault state (R150). -/

namespace Sys2Proof.Machine

/-- With the pin low the fault state steps to itself, so a step that leaves it took RST. -/
theorem rst_of_step_leaves_fault {s t : State} (hf : s.fcode ≠ 0#2) (h : step s = .next t) (ht : t.fcode = 0#2) :
    s.rst = true := by
  cases hr : s.rst with
  | true => rfl
  | false =>
    obtain rfl := Host.Outcome.next.inj ((step_of_faulted s hr hf).symm.trans h)
    exact absurd ht hf

end Sys2Proof.Machine

namespace Sys2Proof.Proofs

open Machine

/-- Settles O2: with rst high the step is `applyRst` whatever the state, and a faulted state with rst low keeps its FCODE. -/
theorem rstTakesConstructionState : Obligations.RstTakesConstructionState :=
  fun s =>
    ⟨fun hr => ⟨applyRst s, step_of_rst s hr, engine_applyRst s, applyRst_fcode s, applyRst_rsp s, applyRst_cmd s⟩,
      fun _ hf h ht => rst_of_step_leaves_fault hf h ht⟩

end Sys2Proof.Proofs

/-! ADD with the buffer in order, both paths in one equation (R107): it compresses the whole slices of BUF ++ bits and keeps
what follows the last. -/

namespace Sys2Proof.Machine

open Safety

/-- BUFLEN plus LEN, as the register adds them, is the length of the joined sequence. -/
theorem bufLen_add_ofNat {s : State} (hb : BufferOk s) (bits : Bits) :
    s.bufLen + BitVec.ofNat 10 bits.length = BitVec.ofNat 10 (s.buf ++ bits).length := by
  apply BitVec.eq_of_toNat_eq
  rw [BitVec.toNat_add, BitVec.toNat_ofNat, BitVec.toNat_ofNat, hb.len_eq, List.length_append, Nat.add_mod_mod]

/-- Below the ceiling an ADD stores the chain over BUF ++ bits and its remainder: on the short path these are H and
BUF ++ bits themselves. -/
theorem addEffect_of_below {s : State} {bits : Bits} (hb : BufferOk s) (hlen : s.totLen.toNat + bits.length < 2 ^ 64) :
    addEffect bits s =
      advance (1 + payloadWords bits.length)
        (storeBlocks (chainOver s.h (s.buf ++ bits)) (remainder (s.buf ++ bits)) (countBits bits.length s)) := by
  by_cases hshort : s.bufLen.toNat + bits.length < 512
  · have hlt : (s.buf ++ bits).length < 512 := by rwa [List.length_append, ← hb.len_eq]
    rw [addEffect_of_short hlen hshort, chainOver_of_lt _ _ hlt, remainder_of_lt _ hlt, storeBlocks, ← bufLen_add_ofNat hb]
    rfl
  · have hover : ¬overflows s.totLen bits.length = true := by rw [overflows_iff]; omega
    rw [addEffect, if_neg hover, if_neg hshort, addBlocks_spec s bits hb (by omega)]

theorem bufferOk_of_nil {s : State} (hbuf : s.buf = []) (hlen : s.bufLen = 0#10) : BufferOk s :=
  ⟨by simp [hbuf, hlen], by simp [hbuf]⟩

theorem bufferOk_storeBlocks (c : Chain) {rest : Bits} (s : State) (h : rest.length < 512) :
    BufferOk (storeBlocks c rest s) :=
  ⟨by simp; omega, h⟩

theorem bufferOk_advance {n : Nat} {s : State} (h : BufferOk s) : BufferOk (advance n s) := ⟨h.len_eq, h.len_lt⟩

/-- An ADD below the ceiling leaves the buffer in order (R26). -/
theorem bufferOk_addEffect {s : State} {bits : Bits} (hb : BufferOk s) (hlen : s.totLen.toNat + bits.length < 2 ^ 64) :
    BufferOk (addEffect bits s) := by
  rw [addEffect_of_below hb hlen]
  exact bufferOk_advance (bufferOk_storeBlocks _ _ (remainder_length_lt _))

end Sys2Proof.Machine

/-! The invariants of a state at rest (R26, R120): each named update keeps them, so every command and every step does. -/

namespace Sys2Proof.Machine

open Safety

theorem inv_reset : Inv State.reset where
  buffer := bufferOk_of_nil rfl rfl
  totLen_mod := rfl
  rsp_digests := rfl
  no_blockSize := by decide
  cp_le := Nat.le_refl 0

theorem inv_raiseFault {s : State} {code : BitVec 2} (h : Inv s) (hcode : code ≠ 3#2) (hcp : s.cp < s.cmd.length) :
    Inv (raiseFault code s) where
  buffer := ⟨h.buffer.len_eq, h.buffer.len_lt⟩
  totLen_mod := h.totLen_mod
  rsp_digests := h.rsp_digests
  no_blockSize := hcode
  cp_le := hcp

theorem inv_construct {s : State} (h : Inv s) : Inv (construct s) where
  buffer := bufferOk_of_nil rfl rfl
  totLen_mod := rfl
  rsp_digests := h.rsp_digests
  no_blockSize := h.no_blockSize
  cp_le := h.cp_le

theorem inv_advance {s : State} {n : Nat} (h : Inv s) (hcp : s.cp + n ≤ s.cmd.length) : Inv (advance n s) where
  buffer := bufferOk_advance h.buffer
  totLen_mod := h.totLen_mod
  rsp_digests := h.rsp_digests
  no_blockSize := h.no_blockSize
  cp_le := hcp

theorem inv_pushDigest {s : State} (h : Inv s) (c : Chain) : Inv (pushDigest c s) where
  buffer := ⟨h.buffer.len_eq, h.buffer.len_lt⟩
  totLen_mod := h.totLen_mod
  rsp_digests := by
    have hrsp := h.rsp_digests
    simp only [pushDigest_rsp, List.length_append, chainWords, List.length_cons, List.length_nil]
    omega
  no_blockSize := h.no_blockSize
  cp_le := h.cp_le

/-- The remainder of BUF ++ bits is as long as the counted total modulo 512, which divides the 2^64 TOTLEN wraps at. -/
theorem inv_storeBlocks {s : State} (h : Inv s) (c : Chain) (bits : Bits) :
    Inv (storeBlocks c (remainder (s.buf ++ bits)) (countBits bits.length s)) where
  buffer := bufferOk_storeBlocks _ _ (remainder_length_lt _)
  totLen_mod := by
    have hmod := h.totLen_mod
    simp only [storeBlocks_buf, storeBlocks_totLen, countBits_totLen, remainder_length, List.length_append,
      BitVec.toNat_add, BitVec.toNat_ofNat]
    omega
  rsp_digests := h.rsp_digests
  no_blockSize := h.no_blockSize
  cp_le := h.cp_le

theorem inv_addEffect {s : State} {bits : Bits} (h : Inv s)
    (hcp : s.cp + (1 + payloadWords bits.length) ≤ s.cmd.length) : Inv (addEffect bits s) := by
  by_cases hlen : s.totLen.toNat + bits.length < 2 ^ 64
  · rw [addEffect_of_below h.buffer hlen]
    exact inv_advance (inv_storeBlocks h _ bits) hcp
  · rw [addEffect_of_overflow (by omega)]
    exact inv_raiseFault h (by decide) (by omega)

/-- A command whose words have all been supplied keeps the invariants. -/
theorem inv_exec {i : Instr} {s t : State} (h : Inv s) (hf : s.fcode = 0#2)
    (hcp : s.cp + (encode i).length ≤ s.cmd.length) (hx : exec i s = .next t) : Inv t := by
  cases i with
  | init =>
    obtain rfl := Host.Outcome.next.inj ((exec_init_of_ok hf).symm.trans hx)
    exact inv_advance (inv_construct h) hcp
  | add bits =>
    obtain rfl := Host.Outcome.next.inj ((exec_add_of_ok hf bits).symm.trans hx)
    rw [encode, List.length_cons, packWords_length] at hcp
    exact inv_addEffect h (by omega)
  | final =>
    obtain rfl := Host.Outcome.next.inj ((exec_final_of_ok hf).symm.trans hx)
    rw [finalEffect_of_lt h.buffer.len_lt]
    exact inv_advance (inv_construct (inv_pushDigest h _)) hcp

/-- Where RST leaves cp: not before it, and within the words supplied if it was. -/
theorem resetCp_bounds (s : State) : s.cp ≤ resetCp s ∧ resetCp s ≤ max s.cp s.cmd.length := by
  unfold resetCp
  split <;> omega

theorem inv_applyRst {s : State} (h : Inv s) : Inv (applyRst s) where
  buffer := bufferOk_of_nil rfl rfl
  totLen_mod := rfl
  rsp_digests := h.rsp_digests
  no_blockSize := by rw [applyRst_fcode]; decide
  cp_le := (resetCp_bounds s).2.trans_eq (max_eq_right h.cp_le)

/-- An overflowing header is a word of the stream. -/
theorem cp_lt_of_headerOverflows {s : State} (h : headerOverflows s = true) : s.cp < s.cmd.length := by
  by_contra hge
  rw [headerOverflows_of_none s (List.getElem?_eq_none (by omega))] at h
  cases h

theorem inv_awaitWords {s : State} (h : Inv s) : Inv (awaitWords s) := by
  cases hover : headerOverflows s with
  | true =>
    rw [awaitWords_of_overflow hover]
    exact inv_raiseFault h (by decide) (cp_lt_of_headerOverflows hover)
  | false => rwa [awaitWords_of_below hover]

/-- A command the decoder has read ends within the words supplied. -/
theorem decode_command_next_le {cmd : List Word} {cp n : Nat} {i : Instr} (h : decode cmd cp = .command i n) :
    n ≤ cmd.length := by
  rcases decode_command_cases h with ⟨-, hw, rfl⟩ | ⟨-, hw, rfl⟩ | ⟨w, -, -, -, hle, -⟩
  · exact (List.getElem?_eq_some_iff.mp hw).1
  · exact (List.getElem?_eq_some_iff.mp hw).1
  · exact hle

theorem inv_step {s t : State} (h : Inv s) (hstep : step s = .next t) : Inv t := by
  rcases step_cases hstep with ⟨-, rfl⟩ | ⟨-, -, rfl⟩ | ⟨-, -, -, rfl⟩ | ⟨w, -, -, hd, rfl⟩ | ⟨i, n, -, hf, hd, hx⟩
  · exact inv_applyRst h
  · exact h
  · exact inv_awaitWords h
  · obtain ⟨hw, -⟩ := decode_illegal_cases hd
    exact inv_raiseFault h (by decide) (List.getElem?_eq_some_iff.mp hw).1
  · exact inv_exec h hf (decode_command_next hd ▸ decode_command_next_le hd) hx

end Sys2Proof.Machine

namespace Sys2Proof.Proofs

open Machine

/-- Settles O22: by the cases of a step, each update keeping the invariants. -/
theorem invKeptByEveryStep : Obligations.InvKeptByEveryStep :=
  fun _ _ => inv_step

/-- Settles O21: the construction state, with nothing consumed and nothing emitted. -/
theorem invHoldsAtReset : Obligations.InvHoldsAtReset :=
  inv_reset

/-- Settles O1: the reset value of each field. -/
theorem resetLeavesConstructionState : Obligations.ResetLeavesConstructionState :=
  ⟨rfl, rfl, rfl, rfl⟩

end Sys2Proof.Proofs

/-! Encoding and decoding (R61 to R69, R74): each gives back what the other took, as far as the pad bits allow. -/

namespace Sys2Proof

open Machine

/-- What a reader at the position after `before` sees. -/
theorem drop_before (before ws after : List Word) : (before ++ ws ++ after).drop before.length = ws ++ after := by
  rw [List.append_assoc, List.drop_left]

theorem toNat_ofNat_of_wf {bits : Bits} (h : (Instr.add bits).wf = true) :
    (BitVec.ofNat 24 bits.length).toNat = bits.length := by
  rw [Instr.wf, decide_eq_true_iff] at h
  rw [BitVec.toNat_ofNat, Nat.mod_eq_of_lt h]

/-- An ADD header whose payload is the packed bits decodes to these bits, whatever follows. -/
theorem decodeAdd_packWords (bits : Bits) (after : List Word) (cp : Nat) :
    decodeAdd bits.length (packWords bits ++ after) cp = .command (.add bits) (cp + 1 + payloadWords bits.length) := by
  have hlen := packWords_length bits
  rw [decodeAdd, if_neg (by rw [List.length_append]; omega), List.take_left' hlen, messageBits_packWords]

theorem decode_encode_init (before after : List Word) :
    decode (before ++ encode .init ++ after) before.length = .command .init (before.length + 1) := by
  rw [decode, drop_before]
  rfl

theorem decode_encode_final (before after : List Word) :
    decode (before ++ encode .final ++ after) before.length = .command .final (before.length + 1) := by
  rw [decode, drop_before]
  rfl

theorem decode_encode_add {bits : Bits} (h : (Instr.add bits).wf = true) (before after : List Word) :
    decode (before ++ encode (.add bits) ++ after) before.length =
      .command (.add bits) (before.length + (encode (.add bits)).length) := by
  have hheader : (before ++ encode (.add bits) ++ after)[before.length]? =
      some (Config.opAdd ++ BitVec.ofNat 24 bits.length) := by
    rw [← List.head?_drop, drop_before]
    rfl
  have hrest : (before ++ encode (.add bits) ++ after).drop (before.length + 1) = packWords bits ++ after := by
    rw [← List.tail_drop, drop_before]
    rfl
  have hadd : isAddHeader (Config.opAdd ++ BitVec.ofNat 24 bits.length) = true := by
    rw [isAddHeader, opField_append, beq_self_eq_true]
  rw [decode_addHeader _ _ _ hheader hadd, hrest, lenField_append, toNat_ofNat_of_wf h, decodeAdd_packWords, encode,
    List.length_cons, packWords_length]
  congr 1
  omega

/-- A word is the header that `encode` writes for its own fields. -/
theorem addHeader_eq {w : Word} (h : isAddHeader w = true) : Config.opAdd ++ BitVec.ofNat 24 (lenField w).toNat = w := by
  rw [isAddHeader_iff] at h
  rw [BitVec.ofNat_toNat, BitVec.setWidth_eq]
  exact (header_of_fields w _ _ h rfl).symm

theorem decode_command_wf {cmd : List Word} {cp n : Nat} {i : Instr} (h : decode cmd cp = .command i n) :
    i.wf = true := by
  rcases decode_command_cases h with ⟨rfl, -, -⟩ | ⟨rfl, -, -⟩ | ⟨w, -, -, rfl, hle, rfl⟩
  · rfl
  · rfl
  · rw [Instr.wf, messageBits_payload_length hle, decide_eq_true_iff]
    exact (lenField w).isLt

/-- The encoding of a decoded command begins with the header that was read. -/
theorem decode_command_header {cmd : List Word} {cp n : Nat} {i : Instr} (h : decode cmd cp = .command i n) :
    (encode i)[0]? = cmd[cp]? := by
  rcases decode_command_cases h with ⟨rfl, hw, -⟩ | ⟨rfl, hw, -⟩ | ⟨w, hw, hadd, rfl, hle, rfl⟩
  · rw [hw]
    rfl
  · rw [hw]
    rfl
  · rw [hw, encode, List.getElem?_cons_zero, messageBits_payload_length hle, addHeader_eq hadd]

end Sys2Proof

namespace Sys2Proof.Proofs

open Machine

/-- Settles O35: one lemma per command, the ADD's by its header's fields and its packed payload. -/
theorem decodeOfEncode : Obligations.DecodeOfEncode := by
  intro i before after hwf
  cases i with
  | init => exact decode_encode_init before after
  | add bits => exact decode_encode_add hwf before after
  | final => exact decode_encode_final before after

/-- Settles O36: from the decoder's cases, an ADD's message being as long as its LEN field says. -/
theorem encodeOfDecoded : Obligations.EncodeOfDecoded :=
  fun _ _ _ _ h => ⟨decode_command_wf h, decode_command_next h, decode_command_next_le h, decode_command_header h⟩

/-- Settles O37: the decoder evaluated on each sample. -/
theorem sampleWordsDecode : Obligations.SampleWordsDecode := by
  unfold Obligations.SampleWordsDecode
  decide

end Sys2Proof.Proofs

/-! What a command leaves unchanged, from every state (R101, R105, R110, R139), and that the streams only move forward
(R41, R42). -/

namespace Sys2Proof.Machine

open Safety

theorem addEffect_frame (bits : Bits) (s : State) :
    (addEffect bits s).cmd = s.cmd ∧ (addEffect bits s).rsp = s.rsp ∧ (addEffect bits s).rst = s.rst := by
  rcases addEffect_cases bits s with ⟨-, he⟩ | ⟨-, -, he⟩ | ⟨c, rest, -, -, -, he⟩ | ⟨-, -, -, he⟩ <;>
    · rw [he]
      exact ⟨rfl, rfl, rfl⟩

/-- An ADD writes FCODE or the engine, never both. -/
theorem addEffect_fcode_or_engine (bits : Bits) (s : State) :
    (addEffect bits s).fcode = s.fcode ∨ engine (addEffect bits s) = engine s := by
  by_cases h : (addEffect bits s).fcode = s.fcode
  · exact .inl h
  · rw [addEffect_precise h]
    exact .inr rfl

/-- Where no block is completed, no ADD writes H. -/
theorem addEffect_h_of_lt {bits : Bits} {s : State} (hlt : s.bufLen.toNat + bits.length < 512) :
    (addEffect bits s).h = s.h := by
  rcases addEffect_cases bits s with ⟨-, he⟩ | ⟨-, -, he⟩ | ⟨c, rest, -, hge, -, -⟩ | ⟨-, hge, -, -⟩
  · rw [he, raiseFault_h]
  · rw [he, advance_h, appendBits_h, countBits_h]
  · omega
  · omega

theorem addEffect_cp_le (bits : Bits) (s : State) : s.cp ≤ (addEffect bits s).cp := by
  rcases addEffect_cases bits s with ⟨-, he⟩ | ⟨-, -, he⟩ | ⟨c, rest, -, -, -, he⟩ | ⟨-, -, -, he⟩ <;>
    · rw [he]
      exact Nat.le_add_right _ _

/-- An effect run through `whenEnabled` keeps what the effect keeps. -/
theorem whenEnabled_induction {p : State → Prop} {effect : State → State} {s : State} (hs : p s)
    (heffect : s.fcode = 0#2 → p (effect s)) : p (whenEnabled effect s) := by
  by_cases hf : s.fcode = 0#2
  · rw [whenEnabled_of_ok _ _ hf]
    exact heffect hf
  · rwa [whenEnabled_of_faulted _ _ hf]

/-- The streams of `t` are those of `s` moved forward: CMD is not written, cp does not go back, and RSP has gained nothing or
one digest. -/
structure StreamsForward (s t : State) : Prop where
  cmd_eq : t.cmd = s.cmd
  cp_le : s.cp ≤ t.cp
  rsp_append : ∃ ws, t.rsp = s.rsp ++ ws ∧ (ws = [] ∨ ws.length = 5)

theorem streamsForward_of_rsp_eq {s t : State} (hcmd : t.cmd = s.cmd) (hcp : s.cp ≤ t.cp) (hrsp : t.rsp = s.rsp) :
    StreamsForward s t :=
  ⟨hcmd, hcp, [], by rw [hrsp, List.append_nil], .inl rfl⟩

theorem streamsForward_refl (s : State) : StreamsForward s s :=
  streamsForward_of_rsp_eq rfl (Nat.le_refl _) rfl

theorem streamsForward_raiseFault (code : BitVec 2) (s : State) : StreamsForward s (raiseFault code s) :=
  streamsForward_of_rsp_eq rfl (Nat.le_succ _) rfl

theorem streamsForward_addEffect (bits : Bits) (s : State) : StreamsForward s (addEffect bits s) := by
  obtain ⟨hcmd, hrsp, -⟩ := addEffect_frame bits s
  exact streamsForward_of_rsp_eq hcmd (addEffect_cp_le bits s) hrsp

theorem streamsForward_finalEffect (s : State) : StreamsForward s (finalEffect s) := by
  obtain ⟨c, -, he⟩ := finalEffect_cases s
  rw [he]
  exact ⟨rfl, Nat.le_succ _, chainWords c, rfl, .inr rfl⟩

theorem streamsForward_exec {i : Instr} {s t : State} (h : exec i s = .next t) : StreamsForward s t := by
  cases i with
  | init =>
    obtain rfl := Host.Outcome.next.inj h
    exact whenEnabled_induction (streamsForward_refl s) fun _ => streamsForward_of_rsp_eq rfl (Nat.le_succ _) rfl
  | add bits =>
    obtain rfl := Host.Outcome.next.inj h
    exact whenEnabled_induction (streamsForward_refl s) fun _ => streamsForward_addEffect bits s
  | final =>
    obtain rfl := Host.Outcome.next.inj h
    exact whenEnabled_induction (streamsForward_refl s) fun _ => streamsForward_finalEffect s

theorem streamsForward_awaitWords (s : State) : StreamsForward s (awaitWords s) := by
  rw [awaitWords]
  split
  · exact streamsForward_raiseFault _ s
  · exact streamsForward_refl s

theorem streamsForward_step {s t : State} (h : step s = .next t) : StreamsForward s t := by
  rcases step_cases h with ⟨-, rfl⟩ | ⟨-, -, rfl⟩ | ⟨-, -, -, rfl⟩ | ⟨w, -, -, -, rfl⟩ | ⟨i, n, -, -, -, hx⟩
  · exact streamsForward_of_rsp_eq rfl (resetCp_bounds s).1 rfl
  · exact streamsForward_refl t
  · exact streamsForward_awaitWords s
  · exact streamsForward_raiseFault _ s
  · exact streamsForward_exec hx

end Sys2Proof.Machine

namespace Sys2Proof.Proofs

open Machine Safety

/-- Settles O23: each effect's frame, carried through `whenEnabled`. -/
theorem commandFrames : Obligations.CommandFrames := by
  refine fun s t => ⟨fun h => ?_, fun bits h => ?_, fun h => ?_⟩
  · obtain rfl := Host.Outcome.next.inj h
    exact whenEnabled_induction (p := fun t => t.fcode = s.fcode ∧ t.cmd = s.cmd ∧ t.rsp = s.rsp ∧ t.rst = s.rst)
      ⟨rfl, rfl, rfl, rfl⟩ fun _ => ⟨rfl, rfl, rfl, rfl⟩
  · obtain rfl := Host.Outcome.next.inj h
    by_cases hf : s.fcode = 0#2
    · rw [whenEnabled_of_ok _ _ hf]
      obtain ⟨hcmd, hrsp, hrst⟩ := addEffect_frame bits s
      exact ⟨hcmd, hrsp, hrst, (addEffect_fcode_or_engine bits s).imp_right fun he => ⟨hf, he⟩, addEffect_h_of_lt⟩
    · rw [whenEnabled_of_faulted _ _ hf]
      exact ⟨rfl, rfl, rfl, .inl rfl, fun _ => rfl⟩
  · obtain rfl := Host.Outcome.next.inj h
    by_cases hf : s.fcode = 0#2
    · rw [whenEnabled_of_ok _ _ hf]
      obtain ⟨c, -, he⟩ := finalEffect_cases s
      rw [he]
      exact ⟨rfl, rfl, rfl, chainWords c, rfl, fun _ => rfl⟩
    · rw [whenEnabled_of_faulted _ _ hf]
      exact ⟨rfl, rfl, rfl, [], (List.append_nil _).symm, fun hok => absurd hok hf⟩

/-- Settles O39: by the cases of a step, RST moving cp to the end of the words supplied at most. -/
theorem streamsOnlyMoveForward : Obligations.StreamsOnlyMoveForward := by
  intro s t h
  obtain ⟨hcmd, hcp, hrsp⟩ := streamsForward_step h
  exact ⟨hcmd, hcp, hrsp⟩

/-- Settles O28: by the cases of a step, every step but RST and that of the fault state being taken from FCODE = 0. -/
theorem fcodeWrittenByFaultsAndRstOnly : Obligations.FcodeWrittenByFaultsAndRstOnly := by
  intro s t h hne
  rcases step_cases h with ⟨hr, rfl⟩ | ⟨-, -, rfl⟩ | ⟨hr, hf, -, -⟩ | ⟨w, hr, hf, -, -⟩ | ⟨i, n, hr, hf, -, -⟩
  · exact .inl ⟨hr, applyRst_fcode s⟩
  · exact absurd rfl hne
  · exact .inr ⟨hr, hf⟩
  · exact .inr ⟨hr, hf⟩
  · exact .inr ⟨hr, hf⟩

end Sys2Proof.Proofs

/-! CORE held inside a command: what the decoder and the overflow check say there (R135), and where RST then leaves cp (log 5). -/

namespace Sys2Proof.Machine

open Safety

theorem held_iff (s : State) :
    held s = true ↔ s.fcode = 0#2 ∧ decode s.cmd s.cp = .needWord ∧ headerOverflows s = false := by
  simp [held, faulted, and_assoc]

theorem held_of_none {s : State} (hf : s.fcode = 0#2) (h : s.cmd.length ≤ s.cp) : held s = true := by
  have hnone : s.cmd[s.cp]? = none := List.getElem?_eq_none h
  exact (held_iff s).mpr ⟨hf, decode_none _ _ hnone, headerOverflows_of_none s hnone⟩

theorem held_of_addHeader {s : State} {w : Word} (hf : s.fcode = 0#2) (hw : s.cmd[s.cp]? = some w)
    (hadd : isAddHeader w = true) (hbelow : s.totLen.toNat + (lenField w).toNat < 2 ^ 64)
    (hlen : s.cmd.length < s.cp + 1 + payloadWords (lenField w).toNat) : held s = true := by
  refine (held_iff s).mpr ⟨hf, decode_addHeader_needWord hw hadd hlen, ?_⟩
  rw [headerOverflows_of_header s w hw, hadd, Bool.true_and, overflows, decide_eq_false_iff_not]
  omega

/-- The two descriptions of a CORE held inside a command: by the decoder, and by the header and the words supplied. -/
theorem held_iff_partlyReceived (s : State) : Held s ↔ PartlyReceived s := by
  constructor
  · rintro ⟨hheld, hlt⟩
    obtain ⟨hf, hd, hover⟩ := (held_iff s).mp hheld
    rcases decode_needWord_cases hd with hnone | ⟨w, hw, hadd, hlen⟩
    · rw [List.getElem?_eq_none_iff] at hnone
      omega
    · rw [headerOverflows_of_header s w hw, hadd, Bool.true_and, overflows, decide_eq_false_iff_not] at hover
      exact ⟨hf, w, hw, (isAddHeader_iff w).mp hadd, Nat.lt_of_not_le hover, hlen⟩
  · rintro ⟨hf, w, hw, hop, hbelow, hlen⟩
    exact ⟨held_of_addHeader hf hw ((isAddHeader_iff w).mpr hop) hbelow hlen, (List.getElem?_eq_some_iff.mp hw).1⟩

theorem step_of_held {s : State} (hr : s.rst = false) (h : held s = true) : step s = .next s := by
  obtain ⟨hf, hd, hover⟩ := (held_iff s).mp h
  rw [step_of_needWord hr hf hd, awaitWords_of_below hover]

/-- RST discards the words of a command partly received. -/
theorem resetCp_of_partlyReceived {s : State} (h : PartlyReceived s) : resetCp s = s.cmd.length := by
  obtain ⟨hheld, hlt⟩ := (held_iff_partlyReceived s).mpr h
  rw [resetCp, if_pos hheld]
  omega

/-- With no command partly received, RST leaves cp: CORE is not held, or no word stands at cp. -/
theorem resetCp_of_not_partlyReceived {s : State} (h : ¬PartlyReceived s) : resetCp s = s.cp := by
  rw [← held_iff_partlyReceived] at h
  rw [resetCp]
  split
  · rename_i hheld
    have hge : ¬s.cp < s.cmd.length := fun hlt => h ⟨hheld, hlt⟩
    omega
  · rfl

/-- No command is empty. -/
theorem encode_length_pos (i : Instr) : 0 < (encode i).length := by
  cases i <;> exact Nat.succ_pos _

/-- A CORE that is neither faulted nor held consumes a word at the least. -/
theorem step_consumes_of_not_held {s : State} (hr : s.rst = false) (hf : s.fcode = 0#2) (hheld : held s = false) :
    ∃ t, step s = .next t ∧ s.cp < t.cp := by
  cases hd : decode s.cmd s.cp with
  | needWord =>
    cases hover : headerOverflows s with
    | false => cases hheld.symm.trans ((held_iff s).mpr ⟨hf, hd, hover⟩)
    | true =>
      refine ⟨_, step_of_needWord hr hf hd, ?_⟩
      rw [awaitWords_of_overflow hover]
      exact Nat.lt_succ_self _
  | illegal w => exact ⟨_, step_of_illegal hr hf hd, Nat.lt_succ_self _⟩
  | command i n =>
    obtain ⟨t, hx⟩ := exec_answers_next i s
    refine ⟨t, (step_of_command hr hf hd).trans hx, ?_⟩
    have hpos := encode_length_pos i
    rcases exec_cp hf hx with ⟨-, hcp⟩ | ⟨-, hcp⟩ <;> omega

theorem step_of_standing {s : State} (hr : s.rst = false) (h : Final s ∨ Held s ∨ Faulted s) : step s = .next s := by
  rcases h with ⟨hcp, hf⟩ | ⟨hheld, -⟩ | hf
  · exact step_of_held hr (held_of_none hf hcp.ge)
  · exact step_of_held hr hheld
  · exact step_of_faulted s hr hf

theorem step_consumes_of_not_standing {s : State} (hr : s.rst = false) (hcp : s.cp ≤ s.cmd.length)
    (h : ¬(Final s ∨ Held s ∨ Faulted s)) : ∃ t, step s = .next t ∧ s.cp < t.cp := by
  simp only [not_or, Final, Held, Faulted, not_not] at h
  obtain ⟨hfinal, hheld, hf⟩ := h
  refine step_consumes_of_not_held hr hf (Bool.eq_false_iff.mpr fun hwait => ?_)
  have hend : ¬s.cp < s.cmd.length := fun hlt => hheld ⟨hwait, hlt⟩
  exact hfinal ⟨by omega, hf⟩

/-! More words supplied (R52, R54, R159). -/

theorem getElem?_append_of_some {cmd : List Word} {cp : Nat} {w : Word} (hw : cmd[cp]? = some w) (more : List Word) :
    (cmd ++ more)[cp]? = some w :=
  (List.getElem?_append_left (List.getElem?_eq_some_iff.mp hw).1).trans hw

theorem getElem?_supply {s : State} {w : Word} (hw : s.cmd[s.cp]? = some w) (more : List Word) :
    (supply more s).cmd[(supply more s).cp]? = some w :=
  getElem?_append_of_some hw more

/-- A command that is all there is read the same with words after it. -/
theorem decode_append_of_command {cmd : List Word} {cp n : Nat} {i : Instr} (more : List Word)
    (h : decode cmd cp = .command i n) : decode (cmd ++ more) cp = .command i n := by
  have hle := decode_command_next_le h
  rcases decode_command_cases h with ⟨rfl, hw, rfl⟩ | ⟨rfl, hw, rfl⟩ | ⟨w, hw, hadd, rfl, -, rfl⟩
  · rw [decode_header _ _ _ (getElem?_append_of_some hw more), if_pos rfl]
  · rw [decode_header _ _ _ (getElem?_append_of_some hw more), if_neg (by decide), if_pos rfl]
  · have hpayload : ((cmd ++ more).drop (cp + 1)).take (payloadWords (lenField w).toNat) =
        (cmd.drop (cp + 1)).take (payloadWords (lenField w).toNat) := by
      rw [List.drop_append_of_le_length (by omega), List.take_append_of_le_length (by rw [List.length_drop]; omega)]
    rw [decode_addHeader_command (getElem?_append_of_some hw more) hadd (by rw [List.length_append]; omega), hpayload]

theorem decode_append_of_illegal {cmd : List Word} {cp : Nat} {w : Word} (more : List Word)
    (h : decode cmd cp = .illegal w) : decode (cmd ++ more) cp = .illegal w := by
  obtain ⟨hw, hinit, hfinal, hadd⟩ := decode_illegal_cases h
  simp [decode_header _ _ _ (getElem?_append_of_some hw more), hinit, hfinal, hadd]

/-- An overflowing header is one, whatever is supplied after it. -/
theorem headerOverflows_cases {s : State} (h : headerOverflows s = true) :
    ∃ w, s.cmd[s.cp]? = some w ∧ isAddHeader w = true ∧ 2 ^ 64 ≤ s.totLen.toNat + (lenField w).toNat := by
  have hw := List.getElem?_eq_getElem (cp_lt_of_headerOverflows h)
  rw [headerOverflows_of_header s _ hw, Bool.and_eq_true, overflows_iff] at h
  exact ⟨_, hw, h.1, h.2⟩

theorem headerOverflows_supply {s : State} (more : List Word) (h : headerOverflows s = true) :
    headerOverflows (supply more s) = true := by
  obtain ⟨w, hw, -, -⟩ := headerOverflows_cases h
  exact (headerOverflows_withCmd hw (getElem?_supply hw more)).trans h

/-- A CORE that is not held waits for no word, so more words leave it not held. -/
theorem held_supply {s : State} (more : List Word) (h : held s = false) : held (supply more s) = false := by
  rw [Bool.eq_false_iff] at h ⊢
  intro hheld
  obtain ⟨hf, hd, hover⟩ := (held_iff _).mp hheld
  cases hd' : decode s.cmd s.cp with
  | command i n => cases (decode_append_of_command more hd').symm.trans hd
  | illegal w => cases (decode_append_of_illegal more hd').symm.trans hd
  | needWord =>
    cases hover' : headerOverflows s with
    | false => exact h ((held_iff s).mpr ⟨hf, hd', hover'⟩)
    | true => cases (headerOverflows_supply more hover').symm.trans hover

theorem applyRst_supply {s : State} (more : List Word) (h : held s = false) :
    applyRst (supply more s) = supply more (applyRst s) := by
  have hcp : resetCp (supply more s) = resetCp s := by
    rw [resetCp, resetCp, held_supply more h, h]
    rfl
  rw [applyRst, hcp]
  rfl

/-- A step of a CORE that is not held does not see the words supplied after it (R52). -/
theorem step_supply {s t : State} (more : List Word) (hheld : held s = false) (h : step s = .next t) :
    step (supply more s) = .next (supply more t) := by
  rcases step_cases h with ⟨hr, rfl⟩ | ⟨hr, hf, rfl⟩ | ⟨hr, hf, hd, rfl⟩ | ⟨w, hr, hf, hd, rfl⟩ | ⟨i, n, hr, hf, hd, hx⟩
  · rw [step_of_rst (supply more s) hr, applyRst_supply more hheld]
  · exact step_of_faulted (supply more t) hr hf
  · cases hover : headerOverflows s with
    | false => cases hheld.symm.trans ((held_iff s).mpr ⟨hf, hd, hover⟩)
    | true =>
      obtain ⟨w, hw, hadd, hge⟩ := headerOverflows_cases hover
      rw [step_of_overflowingHeader (s := supply more s) hr hf (getElem?_supply hw more) hadd hge,
        awaitWords_of_overflow hover]
      rfl
  · rw [step_of_illegal (s := supply more s) hr hf (decode_append_of_illegal more hd)]
    rfl
  · have hsupply : supply more t = { t with cmd := s.cmd ++ more } := by rw [supply, (streamsForward_exec hx).cmd_eq]
    rw [step_of_command (s := supply more s) hr hf (decode_append_of_command more hd), hsupply]
    exact exec_withCmd _ hx

end Sys2Proof.Machine

namespace Sys2Proof.Proofs

open Machine Safety

/-- Settles O3: where `resetCp` stands, a command partly received being a CORE held at a word. -/
theorem rstDiscardsPartialCommand : Obligations.RstDiscardsPartialCommand :=
  fun s hr => ⟨applyRst s, step_of_rst s hr, resetCp_of_partlyReceived, resetCp_of_not_partlyReceived⟩

/-- Settles O25: such a CORE is held, with more words too, until the decoder reads the whole ADD. -/
theorem truncatedCommandHolds : Obligations.TruncatedCommandHolds := by
  refine fun s hr hf => ⟨fun hle => step_of_held hr (held_of_none hf hle), fun w hw hop hbelow hlen => ?_⟩
  have hadd := (isAddHeader_iff w).mpr hop
  refine ⟨step_of_held hr (held_of_addHeader hf hw hadd hbelow hlen), fun more => ⟨fun hshort => ?_, fun henough => ?_⟩⟩
  · refine step_of_held (s := supply more s) hr (held_of_addHeader hf (getElem?_supply hw more) hadd hbelow ?_)
    rwa [supply_cmd, List.length_append]
  · rw [← List.length_append] at henough
    have hd := decode_addHeader_command (getElem?_supply hw more) hadd henough
    exact ⟨_, _, hd, messageBits_payload_length henough, step_of_command (s := supply more s) hr hf hd⟩

/-- Settles O29: a standing CORE steps to itself, any other consumes a word, and the three kinds differ in cp or in FCODE. -/
theorem runStandsStillOnlyWhenFinalHeldOrFaulted : Obligations.RunStandsStillOnlyWhenFinalHeldOrFaulted := by
  intro s hr hcp
  have hmoves := step_consumes_of_not_standing hr hcp
  refine ⟨⟨fun hstill => ?_, step_of_standing hr⟩, ?_, ?_, ?_, hmoves⟩
  · by_contra hnot
    obtain ⟨t, ht, hlt⟩ := hmoves hnot
    obtain rfl := Host.Outcome.next.inj (hstill.symm.trans ht)
    exact Nat.lt_irrefl _ hlt
  · rintro ⟨⟨hend, -⟩, -, hlt⟩
    exact hlt.ne hend
  · rintro ⟨⟨-, hf⟩, hfault⟩
    exact hfault hf
  · rintro ⟨⟨hheld, -⟩, hfault⟩
    obtain ⟨hf, -, -⟩ := (held_iff s).mp hheld
    exact hfault hf

/-- Settles O38: by the cases of a step, none of which waits. -/
theorem laterWordsDoNotChangeAStep : Obligations.LaterWordsDoNotChangeAStep :=
  fun _ _ more hheld h => step_supply more hheld h

/-- Settles O30: the step's case of a whole command. -/
theorem stepRunsDecodedCommand : Obligations.StepRunsDecodedCommand :=
  fun _ _ _ hr hf hd => step_of_command hr hf hd

/-- Settles O31: RST, the fault state and each outcome of the decoder answer. -/
theorem stepAlwaysAnswersNext : Obligations.StepAlwaysAnswersNext :=
  step_answers_next

end Sys2Proof.Proofs

/-! The laws of the engine (R107, R113, R116, R119): one function on the engine says what an ADD below the ceiling makes of
it, and joining messages is composing it. -/

namespace Sys2Proof.Machine

open Safety

/-- What an ADD of `bits` below the ceiling makes of an engine with its buffer in order (R107). -/
def addEngine (e : Engine) (bits : Bits) : Engine where
  h := chainOver e.h (e.buf ++ bits)
  buf := remainder (e.buf ++ bits)
  bufLen := BitVec.ofNat 10 (remainder (e.buf ++ bits)).length
  totLen := e.totLen + BitVec.ofNat 64 bits.length

theorem engine_addEffect {s : State} {bits : Bits} (hb : BufferOk s) (hlen : s.totLen.toNat + bits.length < 2 ^ 64) :
    engine (addEffect bits s) = addEngine (engine s) bits := by
  rw [addEffect_of_below hb hlen]
  rfl

theorem addEngine_append (e : Engine) (a b : Bits) : addEngine (addEngine e a) b = addEngine e (a ++ b) := by
  obtain ⟨hchain, hrem⟩ := chainOver_remainder_append (e.buf ++ a) b e.h
  simp only [addEngine, ← hchain, ← hrem, List.append_assoc, List.length_append, BitVec.ofNat_add, BitVec.add_assoc]

theorem addEngine_nil {s : State} (hb : BufferOk s) : addEngine (engine s) [] = engine s := by
  have hbufLen : BitVec.ofNat 10 s.buf.length = s.bufLen := by rw [← hb.len_eq, BitVec.ofNat_toNat, BitVec.setWidth_eq]
  simp [addEngine, engine, chainOver_of_lt _ _ hb.len_lt, remainder_of_lt _ hb.len_lt, hbufLen]

/-- The commands run in order (R52). -/
theorem execAll_cons {i : Instr} {s t : State} (is : List Instr) (h : exec i s = .next t) :
    execAll (i :: is) s = execAll is t := by
  rw [execAll, h]

theorem execAll_append {is : List Instr} {s t : State} (js : List Instr) (h : execAll is s = .next t) :
    execAll (is ++ js) s = execAll js t := by
  induction is generalizing s with
  | nil =>
    obtain rfl := Host.Outcome.next.inj h
    rfl
  | cons i is ih =>
    obtain ⟨u, hu⟩ := exec_answers_next i s
    rw [execAll_cons is hu] at h
    rw [List.cons_append, execAll_cons (is ++ js) hu, ih h]

/-- The ADDs of a list of pieces, below the ceiling, make of the engine what one ADD of the joined bits does; they do not
fault and emit nothing. -/
theorem execAll_adds (chunks : List Bits) {s : State} (hf : s.fcode = 0#2) (hb : BufferOk s)
    (hlen : s.totLen.toNat + chunks.flatten.length < 2 ^ 64) :
    ∃ t, execAll (chunks.map .add) s = .next t ∧ engine t = addEngine (engine s) chunks.flatten ∧ t.fcode = 0#2 ∧
      t.rsp = s.rsp := by
  induction chunks generalizing s with
  | nil => exact ⟨s, rfl, (addEngine_nil hb).symm, hf, rfl⟩
  | cons bits chunks ih =>
    rw [List.flatten_cons, List.length_append] at hlen
    have hbits : s.totLen.toNat + bits.length < 2 ^ 64 := by omega
    obtain ⟨-, hrsp, -⟩ := addEffect_frame bits s
    obtain ⟨t, ht, he, hft, hrspt⟩ := ih ((addEffect_fcode hb hbits).trans hf) (bufferOk_addEffect hb hbits)
      (by rw [addEffect_totLen hb hbits]; omega)
    refine ⟨t, (execAll_cons _ (exec_add_of_ok hf bits)).trans ht, ?_, hft, hrspt.trans hrsp⟩
    rw [he, engine_addEffect hb hbits, addEngine_append, List.flatten_cons]

/-- The buffer is in order in whatever state has the engine of one where it is. -/
theorem bufferOk_of_engine {s t : State} (hb : BufferOk s) (h : engine t = engine s) : BufferOk t := by
  have hbuf : t.buf = s.buf := congrArg Engine.buf h
  have hbufLen : t.bufLen = s.bufLen := congrArg Engine.bufLen h
  exact ⟨by rw [hbuf, hbufLen, hb.len_eq], hbuf ▸ hb.len_lt⟩

/-- The words a FINAL emits are a function of the engine. -/
def engineDigest (e : Engine) : List Word := chainWords (chainOver e.h (pad e.buf e.totLen))

theorem finalEffect_rsp {s : State} (hlt : s.buf.length < 512) :
    (finalEffect s).rsp = s.rsp ++ engineDigest (engine s) := by
  rw [finalEffect_of_lt hlt]
  rfl

/-! The corner cases of an ADD (42_streaming_engine.md section 3). -/

theorem addEffect_nil {s : State} (hb : BufferOk s) : addEffect [] s = advance 1 s := by
  have hshort : s.bufLen.toNat + ([] : Bits).length < 512 := by rw [hb.len_eq]; exact hb.len_lt
  rw [addEffect_of_short (by simpa using s.totLen.isLt) hshort]
  simp [advance, appendBits, countBits, payloadWords]

theorem remainder_of_whole {m : Bits} (h : m.length % 512 = 0) : remainder m = [] :=
  List.eq_nil_of_length_eq_zero (by rw [remainder_length, h])

/-- Once the first part lies within the whole slices, what is left is the end of the second part. -/
theorem remainder_append_suffix {a b : Bits} (h : a.length ≤ 512 * ((a ++ b).length / 512)) :
    ∃ used, b = used ++ remainder (a ++ b) := by
  refine ⟨b.take (512 * ((a ++ b).length / 512) - a.length), ?_⟩
  rw [remainder, List.drop_append, List.drop_eq_nil_of_le h, List.nil_append, List.take_append_drop]

/-! From a boundary (R119): the padding of the remainder is the padding of the message. -/

theorem addEngine_buf_length_lt (e : Engine) (bits : Bits) : (addEngine e bits).buf.length < 512 :=
  remainder_length_lt _

theorem padZeros_mod (l : Nat) : padZeros (l % 512) = padZeros l := by
  unfold padZeros
  omega

/-- What padding appends to a message: the 1 bit, the zeros and the length. -/
def padTail (m : Bits) : Bits := [true] ++ List.replicate (padZeros m.length) false ++ be64 (BitVec.ofNat 64 m.length)

theorem paddedMessage_eq (m : Bits) : paddedMessage m = m ++ padTail m := by
  simp only [paddedMessage, padTail, List.append_assoc]

/-- The zeros depend on the length modulo 512 alone, so the buffer is padded as the message is. -/
theorem pad_remainder (m : Bits) : pad (remainder m) (BitVec.ofNat 64 m.length) = remainder m ++ padTail m := by
  simp only [pad, padTail, remainder_length, padZeros_mod, List.append_assoc]

/-- An ADD of the message to a fresh engine, and FINAL, give its SHA-1. -/
theorem engineDigest_addEngine_fresh (m : Bits) : engineDigest (addEngine freshEngine m) = sha1 m := by
  have htot : 0#64 + BitVec.ofNat 64 m.length = BitVec.ofNat 64 m.length := BitVec.zero_add _
  obtain ⟨hchain, -⟩ := chainOver_remainder_append m (padTail m) iv
  rw [sha1, paddedMessage_eq, hchain, ← pad_remainder, ← htot]
  rfl

theorem bufferOk_of_fresh {s : State} (h : engine s = freshEngine) : BufferOk s :=
  bufferOk_of_nil (congrArg Engine.buf h) (congrArg Engine.bufLen h)

/-- From a boundary, ADDs of the pieces of a message below the ceiling and then FINAL emit the SHA-1 of the message (R119). -/
theorem finalEffect_rsp_of_fresh {s : State} (chunks : List Bits) (hf : s.fcode = 0#2) (he : engine s = freshEngine)
    (hlen : chunks.flatten.length < 2 ^ 64) :
    ∃ t, execAll (chunks.map .add) s = .next t ∧ exec .final t = .next (finalEffect t) ∧
      (finalEffect t).rsp = s.rsp ++ sha1 chunks.flatten := by
  have htot : s.totLen = 0#64 := congrArg Engine.totLen he
  obtain ⟨t, ht, het, hft, hrsp⟩ := execAll_adds chunks hf (bufferOk_of_fresh he) (by simpa [htot] using hlen)
  have hlt : t.buf.length < 512 := by
    have hbuf : t.buf = _ := congrArg Engine.buf het
    rw [hbuf]
    exact addEngine_buf_length_lt _ _
  refine ⟨t, ht, exec_final_of_ok hft, ?_⟩
  rw [finalEffect_rsp hlt, het, he, engineDigest_addEngine_fresh, hrsp]

theorem paddedMessage_length (m : Bits) : (paddedMessage m).length = m.length + 1 + padZeros m.length + 64 := by
  simp [paddedMessage_eq, padTail]
  omega

theorem sha1_length (m : Bits) : (sha1 m).length = 5 := rfl

theorem sha1_nil :
    sha1 [] = [0xDA39A3EE#32, 0x5E6B4B0D#32, 0x3255BFEF#32, 0x95601890#32, 0xAFD80709#32] := by
  decide +kernel

/-- A FINAL at a boundary emits the digest of the empty message (R113). -/
theorem finalEffect_rsp_of_boundary {s : State} (hf : s.fcode = 0#2) (he : engine s = freshEngine) :
    (finalEffect s).rsp = s.rsp ++ sha1 [] := by
  obtain ⟨t, ht, -, hrsp⟩ := finalEffect_rsp_of_fresh [] hf he (by decide)
  obtain rfl := Host.Outcome.next.inj ht
  exact hrsp

end Sys2Proof.Machine

namespace Sys2Proof.Proofs

open Machine Safety

/-- Settles O8: the one equation of ADD, field by field. -/
theorem addCountLaw : Obligations.AddCountLaw := by
  intro s bits hf hb hlen
  have hlength : (s.buf ++ bits).length = s.bufLen.toNat + bits.length := by rw [List.length_append, hb.len_eq]
  refine ⟨by rw [wholeBlocks_length, hlength], ?_⟩
  rw [exec_add_of_ok hf, addEffect_of_below hb hlen, ← hlength, ← remainder_length, Nat.add_assoc]
  rfl

/-- Settles O9: each clause reads the one equation of ADD at the length of BUF ++ bits it names. -/
theorem addCornerCases : Obligations.AddCornerCases := by
  intro s bits hf hb hlen
  have hlength : (s.buf ++ bits).length = s.bufLen.toNat + bits.length := by rw [List.length_append, hb.len_eq]
  have hadd := addEffect_of_below hb hlen
  refine ⟨_, exec_add_of_ok hf bits, ?_, fun h511 => ?_, fun h512 => ?_, fun hempty m hm => ?_, fun hge => ?_⟩
  · rintro rfl
    exact addEffect_nil hb
  · rw [addEffect_of_short hlen (by omega)]
    refine ⟨rfl, ?_, rfl⟩
    rw [advance_bufLen, appendBits_bufLen, countBits_bufLen, bufLen_add_ofNat hb, hlength, h511]
  · rw [hadd, chainOver_one_block s.h (hlength.trans h512), remainder_of_whole (by rw [hlength, h512])]
    exact ⟨rfl, rfl, rfl⟩
  · have hnil : s.buf = [] := List.eq_nil_of_length_eq_zero (by rw [← hb.len_eq, hempty]; rfl)
    rw [hadd, hnil, List.nil_append, remainder_of_whole (by omega)]
    exact ⟨rfl, rfl⟩
  · have hbuf := hb.len_lt
    rw [hadd]
    exact remainder_append_suffix (by omega)

/-- Settles O15: a FINAL leaves the fresh engine, and from it a FINAL emits the digest of the empty message. -/
theorem finalTwiceEmitsEmptyDigest : Obligations.FinalTwiceEmitsEmptyDigest := by
  intro s hf
  have hf' : (finalEffect s).fcode = 0#2 := (finalEffect_fcode s).trans hf
  refine ⟨_, _, exec_final_of_ok hf, exec_final_of_ok hf', ?_, fun he => ?_⟩
  · rw [← sha1_nil, finalEffect_rsp_of_boundary hf' (engine_finalEffect s)]
  · rw [← sha1_nil, finalEffect_rsp_of_boundary hf he]

/-- Settles O17: the pieces and the joined bits make the same of the engine, of which the digest is a function. -/
theorem chunkingInvariance : Obligations.ChunkingInvariance := by
  intro s chunks hf hb hlen
  obtain ⟨t, ht, he, hft, hrsp⟩ := execAll_adds chunks hf hb hlen
  have hone := engine_addEffect hb hlen
  have hfone : (addEffect chunks.flatten s).fcode = 0#2 := (addEffect_fcode hb hlen).trans hf
  have hok := bufferOk_addEffect hb hlen
  have hsame : engine t = engine (addEffect chunks.flatten s) := he.trans hone.symm
  obtain ⟨-, hrspone, -⟩ := addEffect_frame chunks.flatten s
  refine ⟨_, _, _, _, _, ht, exec_add_of_ok hf _, hsame, exec_final_of_ok hft, exec_final_of_ok hfone, ?_,
    exec_add_of_ok hf [], ?_⟩
  · rw [finalEffect_rsp (bufferOk_of_engine hok hsame).len_lt, finalEffect_rsp hok.len_lt, hsame, hrsp, hrspone]
  · rw [addEffect_nil hb, engine_advance]

/-- Settles O18: the ADDs give the fresh engine the message, FINAL pads what is left of it. -/
theorem finalComputesSha1OfMessage : Obligations.FinalComputesSha1OfMessage := by
  intro s chunks hf he hlen
  obtain ⟨t, ht, hfinal, hrsp⟩ := finalEffect_rsp_of_fresh chunks hf he hlen
  have hpadded := paddedMessage_length chunks.flatten
  obtain ⟨hmod, hlt⟩ := padZeros_spec chunks.flatten.length
  refine ⟨t, _, ht, hfinal, hrsp, ?_, ?_⟩
  · rw [wholeBlocks_length]
    omega
  · rw [wholeBlocks_length]
    split <;> omega

/-- Settles O19: both emit the SHA-1 of the message. -/
theorem digestDependsOnMessageAlone : Obligations.DigestDependsOnMessageAlone := by
  intro s₁ s₂ c₁ c₂ hf₁ hf₂ he₁ he₂ hjoin hlen
  obtain ⟨t₁, ht₁, hfinal₁, hrsp₁⟩ := finalEffect_rsp_of_fresh c₁ hf₁ he₁ hlen
  obtain ⟨t₂, ht₂, hfinal₂, hrsp₂⟩ := finalEffect_rsp_of_fresh c₂ hf₂ he₂ (hjoin ▸ hlen)
  exact ⟨_, _, sha1 c₁.flatten, (execAll_append _ ht₁).trans (execAll_cons [] hfinal₁),
    (execAll_append _ ht₂).trans (execAll_cons [] hfinal₂), sha1_length _, hrsp₁, hjoin ▸ hrsp₂⟩

/-- Settles O20: the fill completes a block, and a padded buffer is a whole number of blocks in every state. -/
theorem everyCompressedBlockHas512Bits : Obligations.EveryCompressedBlockHas512Bits := by
  refine ⟨fun s bits hb hge => ⟨firstBlock_length s bits hb hge, ?_⟩, fun s => ⟨?_, fun htwo => ?_, finalChain_isSome s⟩⟩
  · rw [addBlocks_spec s bits hb hge, Option.isSome_some]
  · rw [List.length_take]
    have hpad := pad_length_mod s.buf s.totLen
    omega
  · rw [List.length_take, List.length_drop]
    have hpad := pad_length_mod s.buf s.totLen
    omega

end Sys2Proof.Proofs

/-! Where the parts of a padded buffer stand (R109). -/

namespace Sys2Proof.Machine

theorem pad_getElem?_one (b : Bits) (t : BitVec 64) : (pad b t)[b.length]? = some true := by
  simp [pad]

theorem pad_getElem?_zeros {b : Bits} {t : BitVec 64} {p : Nat} (h : b.length < p) (h' : p < (pad b t).length - 64) :
    (pad b t)[p]? = some false := by
  rw [pad_length] at h'
  rw [pad, List.getElem?_append_left (by simp; omega), List.getElem?_append_right (by simp; omega),
    List.getElem?_replicate_of_lt (by simp; omega)]

theorem pad_drop_length (b : Bits) (t : BitVec 64) : (pad b t).drop ((pad b t).length - 64) = be64 t := by
  rw [pad_length, pad]
  exact List.drop_left' (by simp; omega)

end Sys2Proof.Machine

/-! The interleaved form of COMPRESS (R94): its window is the last 16 words of the schedule so far. -/

namespace Sys2Proof.Machine

/-- The window R94 keeps of a schedule. -/
def lastWords (w : List Word) : List Word := w.drop (w.length - 16)

theorem lastWords_of_length {m : List Word} (h : m.length = 16) : lastWords m = m := by
  rw [lastWords, h]
  rfl

theorem windowWord_lastWords {w : List Word} (h : 16 ≤ w.length) : windowWord (lastWords w) = scheduleWord w := by
  have hget (j : Nat) : (lastWords w).getD j 0#32 = w.getD (w.length - 16 + j) 0#32 := by
    rw [lastWords, List.getD_eq_getElem?_getD, List.getD_eq_getElem?_getD, List.getElem?_drop]
  rw [windowWord, scheduleWord, hget, hget, hget, hget, show w.length - 16 + 13 = w.length - 3 by omega,
    show w.length - 16 + 8 = w.length - 8 by omega, show w.length - 16 + 2 = w.length - 14 by omega, Nat.add_zero]

/-- The window slides by one word. -/
theorem lastWords_append_singleton {w : List Word} (h : 16 ≤ w.length) (x : Word) :
    lastWords (w ++ [x]) = (lastWords w).drop 1 ++ [x] := by
  rw [lastWords, lastWords, List.drop_drop, List.length_append, List.length_singleton,
    List.drop_append_of_le_length (by omega)]
  congr 2
  omega

/-- The new words of a schedule, the first of them in front. -/
theorem extendSchedule_succ_drop (n : Nat) (w : List Word) :
    (extendSchedule (n + 1) w).drop w.length =
      scheduleWord w :: (extendSchedule n (w ++ [scheduleWord w])).drop (w ++ [scheduleWord w]).length := by
  have hfirst : (extendSchedule n (w ++ [scheduleWord w]))[w.length]? = some (scheduleWord w) := by
    rw [extendSchedule_getElem?_old _ _ _ (by simp), List.getElem?_concat_length]
  rw [extendSchedule, drop_of_getElem? _ _ _ hfirst, List.length_append, List.length_singleton]

/-- Rounds with the window of a schedule are the rounds over the words that extend it. -/
theorem rollingRounds_lastWords (n i : Nat) {w : List Word} (h : 16 ≤ w.length) (v : Working) :
    rollingRounds n i (lastWords w) v = rounds i ((extendSchedule n w).drop w.length) v := by
  induction n generalizing i w v with
  | zero => rw [rollingRounds, extendSchedule, List.drop_length, rounds]
  | succ n ih =>
    rw [extendSchedule_succ_drop, rounds, rollingRounds, windowWord_lastWords h, ← lastWords_append_singleton h,
      ih _ (by rw [List.length_append]; omega)]

theorem compressRolling_eq (s : Chain) {m : List Word} (h : m.length = 16) : compressRolling s m = compress s m := by
  have hsplit : schedule m = m ++ (schedule m).drop m.length := by
    have htake : (schedule m).take m.length = m := extendSchedule_take _ m
    conv_lhs => rw [← List.take_append_drop m.length (schedule m), htake]
  have hroll := rollingRounds_lastWords (Config.schedWords - Config.blockWords) 16 h.ge (rounds 0 m (Working.start s))
  rw [lastWords_of_length h] at hroll
  rw [compressRolling, compress, hroll, hsplit, rounds_append, h]
  rfl

end Sys2Proof.Machine

/-! Words and bits: the length field (R45), the packed register (R25) and the digest value (R46). -/

namespace Sys2Proof.Machine

/-- Word j of a sequence is the word with its bits. -/
theorem wordAt_eq {bs : Bits} {j : Nat} {w : Word} (h : 32 * j + 32 ≤ bs.length)
    (hbits : ∀ k, k < 32 → bs[32 * j + k]? = some (w.getLsbD (31 - k))) : wordAt bs j = w :=
  word_ext _ _ fun k hk => Option.some.inj ((getElem?_wordAt bs j k h hk).symm.trans (hbits k hk))

/-- A slice of a register has the register's bits in message order. -/
theorem getLsbD_extractLsb'_word {n : Nat} (reg : BitVec n) (start : Nat) {k : Nat} (hk : k < 32) :
    (reg.extractLsb' start 32).getLsbD (31 - k) = reg.getLsbD (start + (31 - k)) := by
  rw [BitVec.getLsbD_extractLsb', decide_eq_true (by omega), Bool.true_and]

/-- Word 14 + i of a block that ends in be64(T) is a slice of T. -/
theorem wordAt_be64 {b : Bits} (h : b.length = 448) (t : BitVec 64) {i : Nat} (hi : i < 2) :
    wordAt (b ++ be64 t) (14 + i) = t.extractLsb' (32 - 32 * i) 32 := by
  refine wordAt_eq (by simp; omega) fun k hk => ?_
  rw [List.getElem?_append_right (by omega), be64_getElem? _ _ (by omega), getLsbD_extractLsb'_word _ _ hk]
  congr 2
  omega

theorem wordAt_of_packedForm {reg : BitVec 512} {b : Bits} (h : b.length = 512) (hpacked : PackedForm reg b) {j : Nat}
    (hj : j < 16) : wordAt b j = reg.extractLsb' (480 - 32 * j) 32 := by
  refine wordAt_eq (by omega) fun k hk => ?_
  have hbit := List.getElem?_eq_getElem (show 32 * j + k < b.length by omega)
  rw [hbit, ← hpacked _ _ hbit, getLsbD_extractLsb'_word _ _ hk]
  congr 2
  omega

/-- A slice of a concatenation that begins `j + 1` words up does not reach its last word. -/
theorem extractLsb'_append_word {n : Nat} (x : BitVec n) (w : Word) (j : Nat) :
    (x ++ w).extractLsb' (32 * (j + 1)) 32 = x.extractLsb' (32 * j) 32 :=
  BitVec.extractLsb'_append_eq_of_le (by omega)

theorem extractLsb'_append_secondWord {n : Nat} (x : BitVec n) (v w : Word) : (x ++ v ++ w).extractLsb' 32 32 = v :=
  (extractLsb'_append_word (x ++ v) w 0).trans BitVec.extractLsb'_append_eq_right

end Sys2Proof.Machine

namespace Sys2Proof.Proofs

open Machine

/-- Settles O12: one lemma per part. -/
theorem paddedBufferIsOneOrTwoBlocks : Obligations.PaddedBufferIsOneOrTwoBlocks :=
  fun b t hb => ⟨pad_length_of_le b t, fun h => pad_length_of_ge b t h hb, pad_getElem?_one b t,
    fun _ => pad_getElem?_zeros, pad_drop_length b t⟩

/-- Settles O45: the window's words are the schedule's, by induction on the rounds. -/
theorem rollingWindowComputesCompress : Obligations.RollingWindowComputesCompress :=
  fun s _ h => compressRolling_eq s h

/-- Settles O46: word j is `wordAt b j`, whose bits are known. -/
theorem blockWordsBitOrder : Obligations.BlockWordsBitOrder :=
  fun b hb => ⟨words_length b, fun j k hj hk => ⟨_, words_getElem? b j hj, getElem?_wordAt b j k (by omega) hk⟩⟩

/-- Settles O47: the last two words of the block, bit by bit. -/
theorem lengthFieldWords : Obligations.LengthFieldWords := by
  refine fun t b hb => ⟨be64_length t, be64_getElem? t, ?_, ?_⟩
  · rw [words_getElem? _ _ (by decide)]
    exact congrArg some (wordAt_be64 hb t (i := 0) (by decide))
  · rw [words_getElem? _ _ (by decide)]
    exact congrArg some (wordAt_be64 hb t (i := 1) (by decide))

/-- Settles O49: word j bit by bit, from the packed form. -/
theorem packedBlockWords : Obligations.PackedBlockWords := by
  intro reg b hb hpacked j hj
  rw [words_getElem? b j hj, wordAt_of_packedForm hb hpacked hj]

/-- Settles O48: each slice of the concatenation is one of its parts. -/
theorem digestWordOrder : Obligations.DigestWordOrder := by
  intro c
  refine ⟨?_, ?_, ?_, extractLsb'_append_secondWord _ c.h3 c.h4, BitVec.extractLsb'_append_eq_right, rfl⟩
  · calc (chainValue c).extractLsb' 128 32
      _ = (c.h0 ++ c.h1 ++ c.h2 ++ c.h3).extractLsb' 96 32 := extractLsb'_append_word _ _ 3
      _ = (c.h0 ++ c.h1 ++ c.h2).extractLsb' 64 32 := extractLsb'_append_word _ _ 2
      _ = (c.h0 ++ c.h1).extractLsb' 32 32 := extractLsb'_append_word _ _ 1
      _ = c.h0 := BitVec.extractLsb'_append_eq_left
  · calc (chainValue c).extractLsb' 96 32
      _ = (c.h0 ++ c.h1 ++ c.h2 ++ c.h3).extractLsb' 64 32 := extractLsb'_append_word _ _ 2
      _ = (c.h0 ++ c.h1 ++ c.h2).extractLsb' 32 32 := extractLsb'_append_word _ _ 1
      _ = c.h1 := extractLsb'_append_secondWord _ _ _
  · calc (chainValue c).extractLsb' 64 32
      _ = (c.h0 ++ c.h1 ++ c.h2 ++ c.h3).extractLsb' 32 32 := extractLsb'_append_word _ _ 1
      _ = c.h2 := extractLsb'_append_secondWord _ _ _

end Sys2Proof.Proofs
